-- ==== Sys2Proof/Word.lean ====
section
/-! DEFINITION. The Word of the machine and its wrap (00_scope.md R6, R8): an unsigned 16-bit integer, and reduction
modulo 0x10000 of an exact mathematical integer. -/

namespace Sys2Proof

/-- A Word: register, memory word, instruction word, address (R6: WORD_BITS = ADDR_BITS = 16). -/
abbrev Word := BitVec 16

/-- `wrap16(v) = v mod 0x10000` with the non-negative modulus (R8): `wrap16(-2) = 0xFFFE`. -/
def wrap16 (v : Int) : Word := BitVec.ofInt 16 v

/-- `wrap16` of a natural number (R8). -/
def wrapNat (v : Nat) : Word := BitVec.ofNat 16 v

end Sys2Proof
end

