-- ==== Sys2Proof/Machine/Flags.lean ====
section
/-! DEFINITION. The values the instruction rules compute from the two operand values: the result, what goes to O, and the
condition that calls for a skip. Exact integers first, narrowed once (41_arithmetic.md R70). -/

namespace Sys2Proof.Machine

/-- `s = va + vb`, exact (R72). -/
def addExact (va vb : Word) : Nat := va.toNat + vb.toNat
/-- `wrap16(s)` (R72). -/
def addResult (va vb : Word) : Word := wrapNat (addExact va vb)
/-- O after ADD: 1 on a carry, else 0 (R72). -/
def addO (va vb : Word) : Word := if 0x10000 ≤ addExact va vb then 1 else 0

/-- `d = va - vb`, exact (R73). -/
def subExact (va vb : Word) : Int := (va.toNat : Int) - (vb.toNat : Int)
/-- `wrap16(d)` (R73). -/
def subResult (va vb : Word) : Word := wrap16 (subExact va vb)
/-- O after SUB: 0xFFFF on a borrow, else 0 (R73). -/
def subO (va vb : Word) : Word := if subExact va vb < 0 then 0xFFFF else 0

/-- `p = va * vb`, exact (R74). -/
def mulExact (va vb : Word) : Nat := va.toNat * vb.toNat
/-- `wrap16(p)` (R74). -/
def mulResult (va vb : Word) : Word := wrapNat (mulExact va vb)
/-- `wrap16(p >> 16)` (R74). -/
def mulO (va vb : Word) : Word := wrapNat (mulExact va vb >>> 16)

/-- The quotient, 0 when the divisor is 0 (R75). -/
def divResult (va vb : Word) : Word := if vb = 0 then 0 else wrapNat (va.toNat / vb.toNat)
/-- `wrap16((va << 16) div vb)`, 0 when the divisor is 0 (R75). -/
def divO (va vb : Word) : Word := if vb = 0 then 0 else wrapNat ((va.toNat <<< 16) / vb.toNat)

/-- The remainder, 0 when the divisor is 0 (R76). -/
def modResult (va vb : Word) : Word := if vb = 0 then 0 else wrapNat (va.toNat % vb.toNat)

/-- `t = va << vb`, exact (R77). -/
def shlExact (va vb : Word) : Nat := va.toNat <<< vb.toNat
/-- `wrap16(t)` (R77). -/
def shlResult (va vb : Word) : Word := wrapNat (shlExact va vb)
/-- `wrap16(t >> 16)` (R77). -/
def shlO (va vb : Word) : Word := wrapNat (shlExact va vb >>> 16)

/-- `va >> vb` (R78). -/
def shrResult (va vb : Word) : Word := wrapNat (va.toNat >>> vb.toNat)
/-- `wrap16(floor(va * 2^(16 - vb)))` (R78): a left shift up to a count of 16, a right shift by `vb - 16` above it (the
spec's decision D6, log entry 9). -/
def shrO (va vb : Word) : Word :=
  if vb.toNat ≤ 16 then wrapNat (va.toNat <<< (16 - vb.toNat)) else wrapNat (va.toNat >>> (vb.toNat - 16))

/-- Bitwise AND (R79). -/
def andResult (va vb : Word) : Word := va &&& vb
/-- Bitwise inclusive OR (R80). -/
def borResult (va vb : Word) : Word := va ||| vb
/-- Bitwise exclusive OR (R81). -/
def xorResult (va vb : Word) : Word := va ^^^ vb

/-- IFE skips when `va ≠ vb` (R82). -/
def ifeSkips (va vb : Word) : Bool := decide (va ≠ vb)
/-- IFN skips when `va = vb` (R83). -/
def ifnSkips (va vb : Word) : Bool := decide (va = vb)
/-- IFG skips when `va <= vb`, unsigned (R84). -/
def ifgSkips (va vb : Word) : Bool := decide (va.toNat ≤ vb.toNat)
/-- IFB skips when `va & vb = 0` (R85). -/
def ifbSkips (va vb : Word) : Bool := decide (va &&& vb = 0)

end Sys2Proof.Machine
end

