-- ==== Sys2Proof/Config.lean ====
section
/-! DEFINITION. The fixed parameters of the block (00_scope.md R6: "None is left to a model as an argument"). No
implementation parameter and no free value exists: every rule of the spec fixes its result. -/

namespace Sys2Proof.Config

/-- MEM_WORDS (R6, R25): the words of the memory array. -/
def memWords : Nat := 0x10000

/-- SP_RESET (R6, R23). -/
def spReset : Word := 0xFFFF

/-- EXT_KEY_BASE (R6, R47): the namespace of the extended opcode keys. -/
def extKeyBase : Word := 0xFF00

/-- The largest short literal (R6, SHORT_LITERAL_RANGE 0 to 31). -/
def shortLiteralMax : Nat := 31

/-- MAX_INSTRUCTION_WORDS (R6, R44). -/
def maxInstructionWords : Nat := 3

end Sys2Proof.Config
end

