-- ==== Sys2Proof/Syntax.lean ====
section
/-! DEFINITION. Registers, operands and instructions as syntax: one constructor of `Instr` per row of
spec/opcode_table.json, operands by the kinds of 30_encoding.md R42 with the extension word they carry. -/

namespace Sys2Proof

/-- The eight general registers, `x[0]` to `x[7]` in this order (00_scope.md R9, 10_state.md R14). -/
inductive GReg where
  | a | b | c | x | y | z | i | j
  deriving DecidableEq, Repr

/-- The eleven registers of the register file (10_state.md R13). -/
inductive Reg where
  | a | b | c | x | y | z | i | j | sp | pc | o
  deriving DecidableEq, Repr

/-- An operand: an operand code (30_encoding.md R42) with the extension word it takes, if any. -/
inductive Operand where
  /-- Register-direct: codes 0x00-0x07, and 0x1B SP, 0x1C PC, 0x1D O. -/
  | reg (r : Reg)
  /-- Memory word the register addresses: codes 0x08-0x0F. -/
  | ind (g : GReg)
  /-- Memory word at register plus next word: codes 0x10-0x17. -/
  | idx (g : GReg) (n : Word)
  /-- Stack slot, code 0x18: pop on read, push on write. -/
  | pop
  /-- Peek, code 0x19: top of the stack, writes are no-ops. -/
  | peek
  /-- Stack slot, code 0x1A: "same as 0x18". -/
  | push
  /-- Memory word at the next word: code 0x1E. -/
  | abs (n : Word)
  /-- Next-word literal: code 0x1F. -/
  | long (n : Word)
  /-- Short literal, codes 0x20-0x3F: `n` from 0 to 31 (checked by WellFormed). -/
  | short (n : Nat)
  deriving DecidableEq, Repr

/-- The sixteen instructions (30_encoding.md R48, R49). In a basic instruction `a` is the destination and first source,
`b` the second source. -/
inductive Instr where
  | set (a b : Operand)
  | add (a b : Operand)
  | sub (a b : Operand)
  | mul (a b : Operand)
  | div (a b : Operand)
  | mod (a b : Operand)
  | shl (a b : Operand)
  | shr (a b : Operand)
  | and (a b : Operand)
  | bor (a b : Operand)
  | xor (a b : Operand)
  | ife (a b : Operand)
  | ifn (a b : Operand)
  | ifg (a b : Operand)
  | ifb (a b : Operand)
  | jsr (a : Operand)
  deriving DecidableEq, Repr

end Sys2Proof
end

