-- ==== Sys2Proof/Decode.lean ====
section
/-! DEFINITION. The decoder (30_encoding.md R40 to R50, 40_execution.md R55, R57), total on any list of words and
rejecting by name, then the encoder written from the same tables, and the host's `decodeTableWord`. -/

namespace Sys2Proof

/-- `w[3:0]` (R40). -/
def opField (w : Word) : BitVec 4 := w.extractLsb' 0 4
/-- `w[9:4]` (R40): operand-a code, or the extended opcode (R41). -/
def aField (w : Word) : BitVec 6 := w.extractLsb' 4 6
/-- `w[15:10]` (R40): operand-b code, or the single operand's code (R41). -/
def bField (w : Word) : BitVec 6 := w.extractLsb' 10 6

/-- The fifteen basic opcodes (R48). -/
inductive BasicOp where
  | set | add | sub | mul | div | mod | shl | shr | and | bor | xor | ife | ifn | ifg | ifb
  deriving DecidableEq, Repr

/-- The basic opcode map (R48): every value from 0x1 to 0xF is assigned, 0x0 selects the extended format (R41). -/
def BasicOp.ofBits (op : BitVec 4) : Option BasicOp :=
  match op.toNat with
  | 0x1 => some .set
  | 0x2 => some .add
  | 0x3 => some .sub
  | 0x4 => some .mul
  | 0x5 => some .div
  | 0x6 => some .mod
  | 0x7 => some .shl
  | 0x8 => some .shr
  | 0x9 => some .and
  | 0xA => some .bor
  | 0xB => some .xor
  | 0xC => some .ife
  | 0xD => some .ifn
  | 0xE => some .ifg
  | 0xF => some .ifb
  | _ => none

/-- The instruction of a basic opcode with its operands. -/
def BasicOp.instr (op : BasicOp) (a b : Operand) : Instr :=
  match op with
  | .set => .set a b
  | .add => .add a b
  | .sub => .sub a b
  | .mul => .mul a b
  | .div => .div a b
  | .mod => .mod a b
  | .shl => .shl a b
  | .shr => .shr a b
  | .and => .and a b
  | .bor => .bor a b
  | .xor => .xor a b
  | .ife => .ife a b
  | .ifn => .ifn a b
  | .ifg => .ifg a b
  | .ifb => .ifb a b

/-- What an instruction word alone says (R40, R41, R46). -/
inductive Head where
  /-- Basic format, with the operand codes of a and b. -/
  | basic (op : BasicOp) (ca cb : BitVec 6)
  /-- JSR, with the code of its operand. -/
  | jsr (c : BitVec 6)
  /-- An unassigned extended opcode (R49, R50), with the code of its operand. -/
  | unassigned (ext c : BitVec 6)
  deriving DecidableEq, Repr

/-- The opcode of a basic instruction, which is its key (R47, R48). -/
def BasicOp.bits : BasicOp → BitVec 4
  | .set => 0x1
  | .add => 0x2
  | .sub => 0x3
  | .mul => 0x4
  | .div => 0x5
  | .mod => 0x6
  | .shl => 0x7
  | .shr => 0x8
  | .and => 0x9
  | .bor => 0xA
  | .xor => 0xB
  | .ife => 0xC
  | .ifn => 0xD
  | .ifg => 0xE
  | .ifb => 0xF

/-- The extended opcode of JSR (R49). -/
def jsrExt : BitVec 6 := 0x01

/-- The fields and the opcode map of an instruction word (R40, R41, R48, R49). It reads only the word (R55). -/
def decodeHead (w : Word) : Head :=
  match BasicOp.ofBits (opField w) with
  | some op => .basic op (aField w) (bField w)
  | none => if aField w = jsrExt then .jsr (bField w) else .unassigned (aField w) (bField w)

/-- The key of an extended opcode: `0xFF00 | ext` (R47). -/
def extKey (ext : BitVec 6) : Word := Config.extKeyBase ||| ext.setWidth 16

/-- The key that selects an instruction in the opcode table (R47). -/
def Head.key : Head → Word
  | .basic op _ _ => op.bits.setWidth 16
  | .jsr _ => extKey jsrExt
  | .unassigned ext _ => extKey ext

/-- `e(c)` (R44): the code takes an extension word exactly in 0x10-0x17, 0x1E, 0x1F. -/
def takesWord (c : BitVec 6) : Bool :=
  decide (0x10 ≤ c.toNat ∧ c.toNat ≤ 0x17) || decide (c.toNat = 0x1E) || decide (c.toNat = 0x1F)

/-- `x[i]` by its index (00_scope.md R9). -/
def gregOf (i : Nat) : GReg :=
  match i with
  | 0 => .a
  | 1 => .b
  | 2 => .c
  | 3 => .x
  | 4 => .y
  | 5 => .z
  | 6 => .i
  | _ => .j

/-- A general register as a register of the file. -/
def GReg.toReg : GReg → Reg
  | .a => .a
  | .b => .b
  | .c => .c
  | .x => .x
  | .y => .y
  | .z => .z
  | .i => .i
  | .j => .j

/-- The operand of a code and, where it takes one, its extension word `n` (R42, R57). All 64 codes are covered. -/
def operandOf (c : BitVec 6) (n : Word) : Operand :=
  let k := c.toNat
  if k ≤ 0x07 then .reg (gregOf k).toReg
  else if k ≤ 0x0F then .ind (gregOf (k - 0x08))
  else if k ≤ 0x17 then .idx (gregOf (k - 0x10)) n
  else if k = 0x18 then .pop
  else if k = 0x19 then .peek
  else if k = 0x1A then .push
  else if k = 0x1B then .reg .sp
  else if k = 0x1C then .reg .pc
  else if k = 0x1D then .reg .o
  else if k = 0x1E then .abs n
  else if k = 0x1F then .long n
  else .short (k - 0x20)

/-- Take one operand from a list of words: its extension word is the first of the list (R45). -/
def takeOperand (c : BitVec 6) : List Word → Option (Operand × List Word)
  | [] => if takesWord c then none else some (operandOf c 0, [])
  | n :: ws => if takesWord c then some (operandOf c n, ws) else some (operandOf c 0, n :: ws)

/-- What the decoder answers: an instruction and the words after it, or a rejection by name. -/
inductive DecodeResult where
  /-- An instruction, and the words that follow it. -/
  | ok (i : Instr) (rest : List Word)
  /-- Rejected: an unassigned extended opcode (R49, R50), with its operand and the words that follow. -/
  | unassigned (ext : BitVec 6) (a : Operand) (rest : List Word)
  /-- Rejected: the list ends before the instruction does. -/
  | truncated
  deriving DecidableEq, Repr

/-- The decoder on a list of words: the instruction word, then a's extension word, then b's (R44, R45). -/
def decode : List Word → DecodeResult
  | [] => .truncated
  | w :: ws =>
    match decodeHead w with
    | .basic op ca cb =>
      match takeOperand ca ws with
      | none => .truncated
      | some (a, ws') =>
        match takeOperand cb ws' with
        | none => .truncated
        | some (b, rest) => .ok (op.instr a b) rest
    | .jsr c =>
      match takeOperand c ws with
      | none => .truncated
      | some (a, rest) => .ok (.jsr a) rest
    | .unassigned ext c =>
      match takeOperand c ws with
      | none => .truncated
      | some (a, rest) => .unassigned ext a rest

/-! ## The encoder -/

/-- The operand code of a register-direct operand (R42). -/
def regCode : Reg → BitVec 6
  | .a => 0x00
  | .b => 0x01
  | .c => 0x02
  | .x => 0x03
  | .y => 0x04
  | .z => 0x05
  | .i => 0x06
  | .j => 0x07
  | .sp => 0x1B
  | .pc => 0x1C
  | .o => 0x1D

/-- The operand code of an operand (R42). -/
def operandCode : Operand → BitVec 6
  | .reg r => regCode r
  | .ind g => 0x08 + regCode g.toReg
  | .idx g _ => 0x10 + regCode g.toReg
  | .pop => 0x18
  | .peek => 0x19
  | .push => 0x1A
  | .abs _ => 0x1E
  | .long _ => 0x1F
  | .short n => BitVec.ofNat 6 (0x20 + n)

/-- The extension word of an operand, if it takes one (R42, R43). -/
def extWords : Operand → List Word
  | .idx _ n | .abs n | .long n => [n]
  | .reg _ | .ind _ | .pop | .peek | .push | .short _ => []

/-- The basic format: `{cb, ca, op}` (R40). -/
def basicWord (op : BitVec 4) (a b : Operand) : Word := operandCode b ++ operandCode a ++ op

/-- The extended format: `{c, ext, 0}` (R41). -/
def extendedWord (ext : BitVec 6) (a : Operand) : Word := operandCode a ++ ext ++ (0x0 : BitVec 4)

/-- The words of a basic instruction: the instruction word, a's extension word, b's (R44, R45). -/
def encodeBasic (op : BitVec 4) (a b : Operand) : List Word := basicWord op a b :: (extWords a ++ extWords b)

/-- The words of an instruction (R40, R41, R45, R48, R49). -/
def encode : Instr → List Word
  | .set a b => encodeBasic BasicOp.set.bits a b
  | .add a b => encodeBasic BasicOp.add.bits a b
  | .sub a b => encodeBasic BasicOp.sub.bits a b
  | .mul a b => encodeBasic BasicOp.mul.bits a b
  | .div a b => encodeBasic BasicOp.div.bits a b
  | .mod a b => encodeBasic BasicOp.mod.bits a b
  | .shl a b => encodeBasic BasicOp.shl.bits a b
  | .shr a b => encodeBasic BasicOp.shr.bits a b
  | .and a b => encodeBasic BasicOp.and.bits a b
  | .bor a b => encodeBasic BasicOp.bor.bits a b
  | .xor a b => encodeBasic BasicOp.xor.bits a b
  | .ife a b => encodeBasic BasicOp.ife.bits a b
  | .ifn a b => encodeBasic BasicOp.ifn.bits a b
  | .ifg a b => encodeBasic BasicOp.ifg.bits a b
  | .ifb a b => encodeBasic BasicOp.ifb.bits a b
  | .jsr a => extendedWord jsrExt a :: extWords a

/-- The extension words of an instruction: `e(ca) + e(cb)`, or `e(c)` for JSR (R44). -/
def Instr.extCount : Instr → Nat
  | .set a b | .add a b | .sub a b | .mul a b | .div a b | .mod a b | .shl a b | .shr a b
  | .and a b | .bor a b | .xor a b | .ife a b | .ifn a b | .ifg a b | .ifb a b =>
    (extWords a).length + (extWords b).length
  | .jsr a => (extWords a).length

/-- The operands of an instruction, a and (for a basic instruction) b. -/
def operandsOf : Instr → Operand × Option Operand
  | .set a b | .add a b | .sub a b | .mul a b | .div a b | .mod a b | .shl a b | .shr a b
  | .and a b | .bor a b | .xor a b | .ife a b | .ifn a b | .ifg a b | .ifb a b => (a, some b)
  | .jsr a => (a, none)

/-! ## The host's table words -/

/-- The words of an instruction whose bits are `w`, the bits from `nbits` up being 0: the first word is bits 15..0, then
31..16, then 47..32, up to the longest instruction (R44). -/
def tableWords (nbits w : Nat) : List Word :=
  let v := w % 2 ^ nbits
  [wrapNat v, wrapNat (v >>> 16), wrapNat (v >>> 32)]

/-- The instruction the decoder reads from a table word; none where it refuses. -/
def decodeTableWord (nbits w : Nat) : Option Instr :=
  match decode (tableWords nbits w) with
  | .ok i _ => some i
  | .unassigned _ _ _ => none
  | .truncated => none

end Sys2Proof
end

