-- ==== Sys2Proof/Machine/State.lean ====
section
/-! DEFINITION. The state of the block (10_state.md R13 to R23, 20_memory.md R25), as plain data, its reset value
(R23, 70_reset_and_hazards.md R103), and the reasons a step could stop. -/

namespace Sys2Proof.Machine

/-- The register file: exactly eleven Words (R13), no aliases. -/
structure RegFile where
  a : Word
  b : Word
  c : Word
  x : Word
  y : Word
  z : Word
  i : Word
  j : Word
  sp : Word
  pc : Word
  o : Word
  deriving DecidableEq, Repr

/-- The memory array of 65536 Words (R25), sparse: cells of (word address, Word), addresses strictly rising, no cell
equal to what an unlisted address reads as (`Memory.wf`). The unit is the Word, the spec's smallest unit (R28), log
entry 1. -/
structure Memory where
  cells : List (Nat × Word)
  deriving DecidableEq, Repr

/-- The fault kinds (60_exceptions.md R88). -/
inductive FaultKind where
  /-- Code 1, a key that is not in the opcode table (R89). -/
  | unknownOpcode
  /-- Code 2, an operand code outside all ranges: never produced, since the ranges cover every code (R90). -/
  | unknownOperandCode
  deriving DecidableEq, Repr

/-- The fault record (R20, R89). -/
structure FaultRecord where
  /-- `fault_kind`. -/
  kind : FaultKind
  /-- `fault_value`: the offending key or code, no larger than 0xFFFF. -/
  value : Word
  /-- `fault_pc`: the address of the faulting instruction word. -/
  pc : Word
  deriving DecidableEq, Repr

/-- The engine status (R20). The record is meaningful only in Faulted, so it stands there and nowhere else (log
entry 3). -/
inductive Status where
  | idle
  | faulted (record : FaultRecord)
  deriving DecidableEq, Repr

/-- The whole state of the block (R13 to R22: "Nothing else is architectural state"). -/
structure State where
  /-- The eleven registers (R13 to R17). -/
  regs : RegFile
  /-- The memory array (R25). -/
  mem : Memory
  /-- The cycle counter, unbounded (R19, log entry 11). -/
  cycles : Nat
  /-- The skip flag (R18). -/
  skip : Bool
  /-- The engine status with the fault record (R20). -/
  status : Status
  deriving DecidableEq, Repr

/-- Why a step could stop outside the block's own fault state. The block's fault is a state the spec describes (status
Faulted, 60_exceptions.md R92), so a step that faults answers a NEXT state (log entry 2). -/
inductive Fault where
  /-- Raised by nobody: no operand code is outside the defined ranges (R90: "A model may keep the constructor for fidelity
  to the source but must never produce it"). Safe. -/
  | unknownOperandCode (code : BitVec 6)
  deriving DecidableEq, Repr

/-- Why a step could be refused. -/
inductive Refusal where
  /-- Raised only by an arm of `exec` whose instruction has no meaning yet; no arm does. Safe. -/
  | notModelled (mnemonic : String)
  deriving DecidableEq, Repr

/-- The register file after reset (R23). -/
def RegFile.reset : RegFile :=
  { a := 0, b := 0, c := 0, x := 0, y := 0, z := 0, i := 0, j := 0, sp := Config.spReset, pc := 0, o := 0 }

/-- The state after reset, and after construction (R23, R103): memory all zero, nothing listed. -/
def State.reset : State :=
  { regs := RegFile.reset, mem := { cells := [] }, cycles := 0, skip := false, status := .idle }

end Sys2Proof.Machine
end

