-- ==== Sys2Proof/Machine/Ops.lean ====
section
/-! DEFINITION. The named operations over registers, memory, the cycle counter, the skip flag and the status: the
primitives of 00_scope.md R10, the accessors every reader and writer goes through, the instruction fetch, the skip and
the taking of a fault. -/

namespace Sys2Proof.Machine

/-! ## Registers -/

/-- Read a register of the file (R9, R13). -/
def RegFile.get (f : RegFile) : Reg → Word
  | .a => f.a
  | .b => f.b
  | .c => f.c
  | .x => f.x
  | .y => f.y
  | .z => f.z
  | .i => f.i
  | .j => f.j
  | .sp => f.sp
  | .pc => f.pc
  | .o => f.o

/-- Write a register of the file (R9, R13). -/
def RegFile.set (f : RegFile) (r : Reg) (v : Word) : RegFile :=
  match r with
  | .a => { f with a := v }
  | .b => { f with b := v }
  | .c => { f with c := v }
  | .x => { f with x := v }
  | .y => { f with y := v }
  | .z => { f with z := v }
  | .i => { f with i := v }
  | .j => { f with j := v }
  | .sp => { f with sp := v }
  | .pc => { f with pc := v }
  | .o => { f with o := v }

/-- `R[r]`. -/
def State.getReg (s : State) (r : Reg) : Word := s.regs.get r

/-- `R[r] <- v`. -/
def State.setReg (s : State) (r : Reg) (v : Word) : State := { s with regs := s.regs.set r v }

/-! ## Memory -/

/-- What an address that is not listed reads as: the reset contents (10_state.md R23, 20_memory.md R30, R34). -/
def Memory.unlisted : Word := 0

/-- The first cell of an address, or the unlisted value. -/
def cellsRead (cells : List (Nat × Word)) (k : Nat) : Word :=
  match cells with
  | [] => Memory.unlisted
  | (a, v) :: rest => if a = k then v else cellsRead rest k

/-- The cells without those of an address. -/
def cellsErase (cells : List (Nat × Word)) (k : Nat) : List (Nat × Word) :=
  match cells with
  | [] => []
  | (a, v) :: rest => if a = k then cellsErase rest k else (a, v) :: cellsErase rest k

/-- The cells with one cell put before the first larger address. -/
def cellsInsert (cells : List (Nat × Word)) (k : Nat) (v : Word) : List (Nat × Word) :=
  match cells with
  | [] => [(k, v)]
  | (a, w) :: rest => if k < a then (k, v) :: (a, w) :: rest else (a, w) :: cellsInsert rest k v

/-- The cells with an address made to read as `v`: the unlisted value takes its cell out. -/
def cellsWrite (cells : List (Nat × Word)) (k : Nat) (v : Word) : List (Nat × Word) :=
  if v = Memory.unlisted then cellsErase cells k else cellsInsert (cellsErase cells k) k v

/-- `MemRead(n, 1)`: any natural offset, wrapped modulo 65536 (20_memory.md R26, R27, R35). -/
def Memory.read (m : Memory) (n : Nat) : Word := cellsRead m.cells (n % Config.memWords)

/-- `MemWrite(n, 1, v)`: any natural offset, wrapped modulo 65536 (R26, R27). -/
def Memory.write (m : Memory) (n : Nat) (v : Word) : Memory :=
  { cells := cellsWrite m.cells (n % Config.memWords) v }

/-- Addresses strictly rising from `lo` on and inside the array, no cell equal to the unlisted value. -/
def cellsWf (lo : Nat) : List (Nat × Word) → Bool
  | [] => true
  | (a, v) :: rest =>
    decide (lo ≤ a) && decide (a < Config.memWords) && decide (v ≠ Memory.unlisted) && cellsWf (a + 1) rest

/-- The canonical form of a memory: equal memories are equal data. -/
def Memory.wf (m : Memory) : Bool := cellsWf 0 m.cells

/-- `M[addr]` at a Word address. -/
def State.readWord (s : State) (addr : Word) : Word := s.mem.read addr.toNat

/-- `M[addr] <- v` at a Word address. -/
def State.writeWord (s : State) (addr v : Word) : State := { s with mem := s.mem.write addr.toNat v }

/-! ## Counter, skip flag, stack, fetch -/

/-- `Tick(n)` (R10, R19). -/
def State.tick (s : State) (n : Nat) : State := { s with cycles := s.cycles + n }

/-- `skip <- v` (R18). -/
def State.setSkip (s : State) (v : Bool) : State := { s with skip := v }

/-- Where a push writes: `wrap16(SP - 1)` (40_execution.md R60). -/
def State.pushAddress (s : State) : Word := s.getReg .sp - 1

/-- `Push(v)` (R60): SP decrements, then the word is written at SP. -/
def State.push (s : State) (v : Word) : State :=
  let s' := s.setReg .sp s.pushAddress
  s'.writeWord (s'.getReg .sp) v

/-- `Pop()` (R60): the word at SP is read, then SP increments. -/
def State.pop (s : State) : Word × State :=
  (s.readWord (s.getReg .sp), s.setReg .sp (s.getReg .sp + 1))

/-- `Fetch()` (40_execution.md R54): the word at PC, then PC advances by 1 modulo 0x10000; no tick. -/
def State.fetch (s : State) : Word × State :=
  (s.readWord (s.getReg .pc), s.setReg .pc (s.getReg .pc + 1))

/-- Resolve the extension word of an operand code (R56, R57): `n <- Fetch(); Tick(1)` where the code takes one. -/
def fetchOperand (c : BitVec 6) (s : State) : Operand × State :=
  if takesWord c then (operandOf c s.fetch.1, s.fetch.2.tick 1) else (operandOf c 0, s)

/-- What a fetched word with its extension words names. -/
inductive Fetched where
  /-- An instruction of the opcode table. -/
  | instr (i : Instr)
  /-- An unassigned extended opcode with its operand (44_extended.md R87). -/
  | unassigned (ext : BitVec 6) (a : Operand)
  deriving DecidableEq, Repr

/-- The instruction word and every extension word, a's before b's (40_execution.md R52, R55, R56): what was fetched and the
state after it. -/
def fetchInstr (s : State) : Fetched × State :=
  match decodeHead s.fetch.1 with
  | .basic op ca cb =>
    let ra := fetchOperand ca s.fetch.2
    let rb := fetchOperand cb ra.2
    (.instr (op.instr ra.1 rb.1), rb.2)
  | .jsr c =>
    let ra := fetchOperand c s.fetch.2
    (.instr (.jsr ra.1), ra.2)
  | .unassigned ext c =>
    let ra := fetchOperand c s.fetch.2
    (.unassigned ext ra.1, ra.2)

/-- The skip branch (R66): `Tick(1); skip <- false`, no lookup and no semantic function. -/
def skipInstr (s : State) : State := (s.tick 1).setSkip false

/-- Taking a fault, the block's only trap entry (60_exceptions.md R92): the status and the record; control goes nowhere. -/
def takeFault (kind : FaultKind) (value pc : Word) (s : State) : State :=
  { s with status := .faulted { kind := kind, value := value, pc := pc } }

/-- The fault code of a kind (R88). -/
def FaultKind.code : FaultKind → Nat
  | .unknownOpcode => 1
  | .unknownOperandCode => 2

/-- The fault record, if one is recorded (R20, R23). -/
def Status.record? : Status → Option FaultRecord
  | .idle => none
  | .faulted r => some r

/-- The declared cost of an instruction in cycles (30_encoding.md R48, R49). -/
def cost : Instr → Nat
  | .set _ _ => 1
  | .add _ _ => 2
  | .sub _ _ => 2
  | .mul _ _ => 2
  | .div _ _ => 3
  | .mod _ _ => 3
  | .shl _ _ => 2
  | .shr _ _ => 2
  | .and _ _ => 1
  | .bor _ _ => 1
  | .xor _ _ => 1
  | .ife _ _ => 2
  | .ifn _ _ => 2
  | .ifg _ _ => 2
  | .ifb _ _ => 2
  | .jsr _ => 2

/-- Store words at consecutive offsets from `n` on, in order (20_memory.md R33: `MemWrite(i, 1, words[i])`). -/
def Memory.storeFrom (m : Memory) (n : Nat) : List Word → Memory
  | [] => m
  | w :: ws => (m.write n w).storeFrom (n + 1) ws

/-- The words of an instruction placed where the next fetch reads: at PC and the words after it (R54). -/
def State.placeAtPc (s : State) (ws : List Word) : State :=
  { s with mem := s.mem.storeFrom (s.getReg .pc).toNat ws }

end Sys2Proof.Machine
end

