-- ==== Sys2Proof/Machine/Operands.lean ====
section
/-! DEFINITION. Operand handles (40_execution.md R56 to R63) and the shapes the instruction rules share: which operands
are read, in which order, and what is written when (R64, R65). -/

namespace Sys2Proof.Machine

/-- An operand handle carries "only the state it needs" (R58 to R63, 10_state.md R21). -/
inductive Handle where
  /-- Register-direct (R58). -/
  | reg (r : Reg)
  /-- Memory address, fixed at resolution (R59). -/
  | mem (addr : Word)
  /-- Stack slot with its pop cache (R61). -/
  | stack (cache : Option Word)
  /-- Peek (R62). -/
  | peek
  /-- Literal (R63). -/
  | lit (n : Word)
  deriving DecidableEq, Repr

/-- `Resolve` (R57), the extension word already fetched: addresses are computed now, values are not read. -/
def resolve (a : Operand) (s : State) : Handle :=
  match a with
  | .reg r => .reg r
  | .ind g => .mem (s.getReg g.toReg)
  | .idx g n => .mem (s.getReg g.toReg + n)
  | .pop => .stack none
  | .peek => .peek
  | .push => .stack none
  | .abs n => .mem n
  | .long n => .lit n
  | .short n => .lit (wrapNat n)

/-- What `Get` answers: the value, the handle (its pop cache may be filled) and the state. -/
structure GetResult where
  value : Word
  handle : Handle
  state : State
  deriving DecidableEq, Repr

/-- `Get(h)` (R58 to R63): only a stack slot whose cache is empty changes anything, it pops. -/
def Handle.get (h : Handle) (s : State) : GetResult :=
  match h with
  | .reg r => { value := s.getReg r, handle := h, state := s }
  | .mem addr => { value := s.readWord addr, handle := h, state := s }
  | .stack none => { value := s.pop.1, handle := .stack (some s.pop.1), state := s.pop.2 }
  | .stack (some v) => { value := v, handle := h, state := s }
  | .peek => { value := s.readWord (s.getReg .sp), handle := h, state := s }
  | .lit n => { value := n, handle := h, state := s }

/-- `Set(h, v)` (R58 to R63): a stack slot pushes, a peek and a literal discard the write. -/
def Handle.set (h : Handle) (v : Word) (s : State) : State :=
  match h with
  | .reg r => s.setReg r v
  | .mem addr => s.writeWord addr v
  | .stack _ => s.push v
  | .peek => s
  | .lit _ => s

/-- The address a `Set` of this handle stores to in this state, if it stores to memory. -/
def Handle.storeAddress (h : Handle) (s : State) : Option Word :=
  match h with
  | .mem addr => some addr
  | .stack _ => some s.pushAddress
  | .reg _ | .peek | .lit _ => none

/-- The two values an instruction reads, with the handles and the state after the reads. -/
structure Reads where
  va : Word
  vb : Word
  ha : Handle
  hb : Handle
  state : State
  deriving DecidableEq, Repr

/-- Read a, then b, each once, before any write (R64). Both handles are resolved first (R56). -/
def readBoth (a b : Operand) (s : State) : Reads :=
  let ra := (resolve a s).get s
  let rb := (resolve b s).get ra.state
  { va := ra.value, vb := rb.value, ha := ra.handle, hb := rb.handle, state := rb.state }

/-- `Set(ha, f va vb)`; O is not written (AND, BOR, XOR). -/
def setOnly (f : Word → Word → Word) (a b : Operand) (s : State) : State :=
  let r := readBoth a b s
  r.ha.set (f r.va r.vb) r.state

/-- `Set(ha, f va vb)`, then `O <- g va vb` (R65: ADD, SUB, MUL, DIV, SHL). -/
def setThenO (f g : Word → Word → Word) (a b : Operand) (s : State) : State :=
  let r := readBoth a b s
  (r.ha.set (f r.va r.vb) r.state).setReg .o (g r.va r.vb)

/-- `O <- g va vb`, then `Set(ha, f va vb)` (R65: SHR). -/
def oThenSet (f g : Word → Word → Word) (a b : Operand) (s : State) : State :=
  let r := readBoth a b s
  r.ha.set (f r.va r.vb) (r.state.setReg .o (g r.va r.vb))

/-- `if skips va vb then skip <- true`; no operand is written (43_conditional.md). -/
def skipIf (skips : Word → Word → Bool) (a b : Operand) (s : State) : State :=
  let r := readBoth a b s
  if skips r.va r.vb then r.state.setSkip true else r.state

end Sys2Proof.Machine
end

