-- ==== Sys2Proof/Machine/Arithmetic.lean ====
section
/-! DEFINITION. SET, ADD, SUB, MUL, DIV, MOD, SHL, SHR (41_arithmetic.md R71 to R78). Each meaning ticks the cost, then
runs the rule's Execute body (40_execution.md R67) on the state after fetch and resolution. -/

namespace Sys2Proof.Machine

/-- SET a, b (R71): reads only b, then writes a. -/
def execSet (a b : Operand) (s : State) : Host.Outcome State Fault Refusal :=
  let s1 := s.tick (cost (.set a b))
  let rb := (resolve b s1).get s1
  .next ((resolve a s1).set rb.value rb.state)

/-- ADD a, b (R72). -/
def execAdd (a b : Operand) (s : State) : Host.Outcome State Fault Refusal :=
  .next (setThenO addResult addO a b (s.tick (cost (.add a b))))

/-- SUB a, b (R73). -/
def execSub (a b : Operand) (s : State) : Host.Outcome State Fault Refusal :=
  .next (setThenO subResult subO a b (s.tick (cost (.sub a b))))

/-- MUL a, b (R74). -/
def execMul (a b : Operand) (s : State) : Host.Outcome State Fault Refusal :=
  .next (setThenO mulResult mulO a b (s.tick (cost (.mul a b))))

/-- DIV a, b (R75): a zero divisor writes 0 to a and to O, in the same order. -/
def execDiv (a b : Operand) (s : State) : Host.Outcome State Fault Refusal :=
  .next (setThenO divResult divO a b (s.tick (cost (.div a b))))

/-- MOD a, b (R76): O is written, with 0, only when the divisor is 0. -/
def execMod (a b : Operand) (s : State) : Host.Outcome State Fault Refusal :=
  let r := readBoth a b (s.tick (cost (.mod a b)))
  let s' := r.ha.set (modResult r.va r.vb) r.state
  .next (if r.vb = 0 then s'.setReg .o 0 else s')

/-- SHL a, b (R77). -/
def execShl (a b : Operand) (s : State) : Host.Outcome State Fault Refusal :=
  .next (setThenO shlResult shlO a b (s.tick (cost (.shl a b))))

/-- SHR a, b (R78): O is written first. -/
def execShr (a b : Operand) (s : State) : Host.Outcome State Fault Refusal :=
  .next (oThenSet shrResult shrO a b (s.tick (cost (.shr a b))))

end Sys2Proof.Machine
end

