-- ==== Sys2Proof/Machine/Bitwise.lean ====
section
/-! DEFINITION. AND, BOR, XOR (42_bitwise.md R79 to R81): they write only their destination. -/

namespace Sys2Proof.Machine

/-- AND a, b (R79). -/
def execAnd (a b : Operand) (s : State) : Host.Outcome State Fault Refusal :=
  .next (setOnly andResult a b (s.tick (cost (.and a b))))

/-- BOR a, b (R80). -/
def execBor (a b : Operand) (s : State) : Host.Outcome State Fault Refusal :=
  .next (setOnly borResult a b (s.tick (cost (.bor a b))))

/-- XOR a, b (R81). -/
def execXor (a b : Operand) (s : State) : Host.Outcome State Fault Refusal :=
  .next (setOnly xorResult a b (s.tick (cost (.xor a b))))

end Sys2Proof.Machine
end

