-- ==== Sys2Proof/Machine/Conditional.lean ====
section
/-! DEFINITION. IFE, IFN, IFG, IFB (43_conditional.md R82 to R85): they read a, then b, and may set the skip flag. -/

namespace Sys2Proof.Machine

/-- IFE a, b (R82). -/
def execIfe (a b : Operand) (s : State) : Host.Outcome State Fault Refusal :=
  .next (skipIf ifeSkips a b (s.tick (cost (.ife a b))))

/-- IFN a, b (R83). -/
def execIfn (a b : Operand) (s : State) : Host.Outcome State Fault Refusal :=
  .next (skipIf ifnSkips a b (s.tick (cost (.ifn a b))))

/-- IFG a, b (R84). -/
def execIfg (a b : Operand) (s : State) : Host.Outcome State Fault Refusal :=
  .next (skipIf ifgSkips a b (s.tick (cost (.ifg a b))))

/-- IFB a, b (R85). -/
def execIfb (a b : Operand) (s : State) : Host.Outcome State Fault Refusal :=
  .next (skipIf ifbSkips a b (s.tick (cost (.ifb a b))))

end Sys2Proof.Machine
end

