-- ==== Sys2Proof/Machine/Extended.lean ====
section
/-! DEFINITION. JSR (44_extended.md R86). The unassigned extended keys (R87) are no instruction: the step takes their
fault. -/

namespace Sys2Proof.Machine

/-- JSR a (R86): push PC, then read a, then PC takes the value read. The handle is resolved before the push (R52). -/
def execJsr (a : Operand) (s : State) : Host.Outcome State Fault Refusal :=
  let s1 := s.tick (cost (.jsr a))
  let ra := (resolve a s1).get (s1.push (s1.getReg .pc))
  .next (ra.state.setReg .pc ra.value)

end Sys2Proof.Machine
end

