-- ==== Sys2Proof/Machine/Step.lean ====
section
/-! DEFINITION. One step of the block (40_execution.md R52, R53). -/

namespace Sys2Proof.Machine

/-- One step (R52): in Faulted nothing happens (R53); otherwise fetch and resolve, then the skip check (R66), then the
lookup (R67): an instruction of the table runs, an unassigned key takes the fault UnknownOpcode (R89, R92). -/
def step (s : State) : Host.Outcome State Fault Refusal :=
  match s.status with
  | .faulted _ => .next s
  | .idle =>
    if (fetchInstr s).2.skip then .next (skipInstr (fetchInstr s).2)
    else
      match (fetchInstr s).1 with
      | .instr i => exec i (fetchInstr s).2
      | .unassigned ext _ => .next (takeFault .unknownOpcode (extKey ext) (s.getReg .pc) (fetchInstr s).2)

/-- The state with a table word and its (zero) extension words stored where the next step fetches: at PC and after. -/
def State.withFetchWord (s : State) (nbits w : Nat) : State := s.placeAtPc (tableWords nbits w)

end Sys2Proof.Machine
end

