-- ==== Sys2Proof/Machine/HostOps.lean ====
section
/-! DEFINITION. The host operations (70_reset_and_hazards.md R103 to R107, 20_memory.md R33 to R35): transactions
between steps. The host cannot write registers, the skip flag or the counter, and cannot read the skip flag. -/

namespace Sys2Proof.Machine

/-- reset (R103): every piece of state to its reset value, in either status. -/
def hostReset (_ : State) : State := State.reset

/-- load (R33): word i of the sequence, reduced by wrap16, to offset i modulo 0x10000, in order; nothing else changes. -/
def hostLoad (words : List Int) (s : State) : State := { s with mem := s.mem.storeFrom 0 (words.map wrap16) }

/-- wipe (R34): every word of memory becomes 0. -/
def hostWipe (s : State) : State := { s with mem := { cells := [] } }

/-- step (R105): the state after one step; a step of this block always answers a next state. -/
def hostStep (s : State) : State :=
  match step s with
  | .next t => t
  | .fault _ => s
  | .refused _ => s

/-- The loop of run (R106) with a bound on its passes. -/
def runLoop (maxCycles : Nat) : Nat → State → State
  | 0, s => s
  | k + 1, s => if s.status = .idle ∧ s.cycles < maxCycles then runLoop maxCycles k (hostStep s) else s

/-- run (R106): `while status = Idle and cycles < max_cycles: Step()`. Every pass that does not fault adds at least one
cycle, so `max_cycles - cycles` passes are enough (log entry 12). -/
def hostRun (maxCycles : Nat) (s : State) : State := runLoop maxCycles (maxCycles - s.cycles) s

/-- The operations of the host that can change state (R105). -/
inductive HostOp where
  | reset
  | load (words : List Int)
  | wipe
  | step
  | run (maxCycles : Nat)
  deriving DecidableEq, Repr

/-- The effect of a host operation, an indivisible transaction between steps (R105). -/
def hostApply (op : HostOp) (s : State) : State :=
  match op with
  | .reset => hostReset s
  | .load words => hostLoad words s
  | .wipe => hostWipe s
  | .step => hostStep s
  | .run maxCycles => hostRun maxCycles s

/-- read register (R105). -/
def hostReadRegister (r : Reg) (s : State) : Word := s.getReg r

/-- read memory (R35): `M[n mod 0x10000]`. -/
def hostReadMemory (n : Nat) (s : State) : Word := s.mem.read n

/-- read cycles (R105). -/
def hostReadCycles (s : State) : Nat := s.cycles

/-- read status (R105): the status with, in Faulted, the fault record. -/
def hostReadStatus (s : State) : Status := s.status

end Sys2Proof.Machine
end

