-- ==== Sys2Proof/Machine/Observe.lean ====
section
/-! DEFINITION. The five observation points of a step (60_exceptions.md R100): what an external observer may read, in
order, as a function of the state the step starts from. They change no state. -/

namespace Sys2Proof.Machine

/-- The lifecycle points (R100). -/
inductive ObservationPoint where
  | beforeStep
  | skippedInstruction
  | beforeExecution
  | afterExecution
  | afterStep
  deriving DecidableEq, Repr

/-- The instruction and the handles a point may be passed (R100). -/
structure ObservedInstr where
  fetched : Fetched
  ha : Handle
  hb : Option Handle
  deriving DecidableEq, Repr

/-- One observation: the point, the CPU at that point, and the instruction with its handles where the point has them. -/
structure Observation where
  point : ObservationPoint
  cpu : State
  instr : Option ObservedInstr
  deriving DecidableEq, Repr

/-- The operands of what was fetched (R41: an extended word has one). -/
def Fetched.operands : Fetched → Operand × Option Operand
  | .instr i => operandsOf i
  | .unassigned _ a => (a, none)

/-- What was fetched with its handles, resolved in the state after the fetch. -/
def observedInstr (f : Fetched) (s : State) : ObservedInstr :=
  { fetched := f, ha := resolve f.operands.1 s, hb := f.operands.2.map (fun b => resolve b s) }

/-- The observations of one step (R100): none in Faulted, where no step is taken; a faulting step fires `before_step` only.
`after_execution` has no payload in the source, and carries none here (log entry 14). -/
def observations (s : State) : List Observation :=
  match s.status with
  | .faulted _ => []
  | .idle =>
    let f := fetchInstr s
    let start : Observation := { point := .beforeStep, cpu := s, instr := none }
    let finish : Observation := { point := .afterStep, cpu := hostStep s, instr := none }
    if f.2.skip then
      [start, { point := .skippedInstruction, cpu := skipInstr f.2, instr := some (observedInstr f.1 f.2) }, finish]
    else
      match f.1 with
      | .instr i =>
        [start,
         { point := .beforeExecution, cpu := f.2.tick (cost i), instr := some (observedInstr f.1 f.2) },
         { point := .afterExecution, cpu := hostStep s, instr := none },
         finish]
      | .unassigned _ _ => [start]

end Sys2Proof.Machine
end

