-- ==== Sys2Proof/WellFormed.lean ====
section
/-! DEFINITION. What the encoding admits: the one check the syntax leaves open is the range of a short literal
(00_scope.md R6, 30_encoding.md R43: "a value from 0 to 31"). -/

namespace Sys2Proof

/-- An operand some operand code encodes. -/
def Operand.wf : Operand → Bool
  | .short n => decide (n ≤ Config.shortLiteralMax)
  | .reg _ | .ind _ | .idx _ _ | .pop | .peek | .push | .abs _ | .long _ => true

/-- An instruction some instruction word with its extension words encodes. -/
def Instr.wf : Instr → Bool
  | .set a b | .add a b | .sub a b | .mul a b | .div a b | .mod a b | .shl a b | .shr a b
  | .and a b | .bor a b | .xor a b | .ife a b | .ifn a b | .ifg a b | .ifb a b => a.wf && b.wf
  | .jsr a => a.wf

end Sys2Proof
end

