-- ==== Sys2Proof/Safety.lean ====
section
/-! DEFINITION. The terms the claims use: what an operand reads and where it writes, said once from the table of
30_encoding.md R42 without handles; the words the next step reads; the invariant of the machine; and which registers an
instruction's operands name. -/

namespace Sys2Proof.Machine

/-- A stack-slot operand (R42: codes 0x18 and 0x1A). -/
def isStackSlot : Operand → Bool
  | .pop | .push => true
  | .reg _ | .ind _ | .idx _ _ | .peek | .abs _ | .long _ | .short _ => false

/-- The value an operand reads in a state (R42). -/
def operandValue (a : Operand) (s : State) : Word :=
  match a with
  | .reg r => s.getReg r
  | .ind g => s.readWord (s.getReg g.toReg)
  | .idx g n => s.readWord (s.getReg g.toReg + n)
  | .pop | .push | .peek => s.readWord (s.getReg .sp)
  | .abs n => s.readWord n
  | .long n => n
  | .short n => BitVec.ofNat 16 n

/-- The state after an operand is read: a stack slot pops (R42, R60). -/
def afterRead (a : Operand) (s : State) : State :=
  if isStackSlot a then s.setReg .sp (s.getReg .sp + 1) else s

/-- The state after a word is written to an operand: the address is that of the state `s0` in which the operand was
resolved (R59), the write happens in `s`; a stack slot pushes, a peek and a literal discard (R42, R60). -/
def storeOperand (a : Operand) (v : Word) (s0 s : State) : State :=
  match a with
  | .reg r => s.setReg r v
  | .ind g => s.writeWord (s0.getReg g.toReg) v
  | .idx g n => s.writeWord (s0.getReg g.toReg + n) v
  | .abs n => s.writeWord n v
  | .pop | .push => (s.setReg .sp (s.getReg .sp - 1)).writeWord (s.getReg .sp - 1) v
  | .peek | .long _ | .short _ => s

/-- The words the next step can read as one instruction: at PC and the two after it (R44, R45). -/
def State.window (s : State) : List Word :=
  [s.readWord (s.getReg .pc), s.readWord (s.getReg .pc + 1), s.readWord (s.getReg .pc + 2)]

/-- The state after an instruction word and `n` extension words are fetched and ticked (R54, R57). -/
def State.advanced (s : State) (n : Nat) : State :=
  { s with regs := s.regs.set .pc (s.getReg .pc + BitVec.ofNat 16 (n + 1)), cycles := s.cycles + n }

/-- The conditional instructions (43_conditional.md). -/
def isConditional : Instr → Bool
  | .ife _ _ | .ifn _ _ | .ifg _ _ | .ifb _ _ => true
  | .set _ _ | .add _ _ | .sub _ _ | .mul _ _ | .div _ _ | .mod _ _ | .shl _ _ | .shr _ _
  | .and _ _ | .bor _ _ | .xor _ _ | .jsr _ => false

/-- The operand names a register: as itself, or for its address. -/
def operandNames (r : Reg) : Operand → Bool
  | .reg q => decide (q = r)
  | .ind g | .idx g _ => decide (g.toReg = r)
  | .pop | .peek | .push | .abs _ | .long _ | .short _ => false

/-- Some operand of the instruction names a register. -/
def instrNames (r : Reg) (i : Instr) : Bool :=
  operandNames r (operandsOf i).1 || ((operandsOf i).2.map (operandNames r)).getD false

/-- A status the block can be in: Idle, or Faulted with a record of an unassigned extended key (R89, R90). -/
def Status.legal : Status → Prop
  | .idle => True
  | .faulted r =>
    r.kind = .unknownOpcode ∧ 0xFF00 ≤ r.value.toNat ∧ r.value.toNat ≤ 0xFF3F ∧ r.value.toNat ≠ 0xFF01

/-- The invariant of the machine: memory in canonical form, a legal status, and no skip pending in Faulted (R92). -/
def State.Inv (s : State) : Prop :=
  s.mem.wf = true ∧ s.status.legal ∧ (s.status ≠ .idle → s.skip = false)

end Sys2Proof.Machine
end

