-- ==== Sys2Proof/Certificates/Slice0/Obligations.lean ====
section
/-! DEFINITION. The statements for the provers. A docstring names the spec's sentence or section a statement formalises,
and the log entry of each choice it rests on. -/

open Sys2Proof Sys2Proof.Machine

/-! ## Encoding -/

/-- 30_encoding.md, instruction formats, operand codes and lengths: no bit of an encoding is dropped. -/
def Obligations.DecodeOfEncodeIsTheInstruction : Prop :=
  ∀ (i : Instr) (rest : List Word), i.wf = true → decode (encode i ++ rest) = .ok i rest

/-- 30_encoding.md: "no bit of an instruction word is ignored": each list of words has one reading. -/
def Obligations.DecodedWordsAreTheEncoding : Prop :=
  ∀ (ws rest : List Word) (i : Instr), decode ws = .ok i rest → i.wf = true ∧ ws = encode i ++ rest

/-- 30_encoding.md, reserved encodings, and 60_exceptions.md on operand codes: with three words at hand the only words
rejected are those with `w[3:0] = 0` and `w[9:4] ≠ 0x01`. -/
def Obligations.OnlyUnassignedExtendedWordsAreRejected : Prop :=
  ∀ (w e1 e2 : Word) (rest : List Word),
    ((∃ i r, decode (w :: e1 :: e2 :: rest) = .ok i r) ↔ ¬(w.toNat % 16 = 0 ∧ w.toNat / 16 % 64 ≠ 1)) ∧
    ((∃ ext a r, decode (w :: e1 :: e2 :: rest) = .unassigned ext a r ∧ ext.toNat = w.toNat / 16 % 64) ↔
      (w.toNat % 16 = 0 ∧ w.toNat / 16 % 64 ≠ 1))

/-- R40: the fields of an instruction word, its recomposition, and the basic format: operand a is that of `w[9:4]`, operand b
that of `w[15:10]`. -/
def Obligations.BasicWordFields : Prop :=
  ∀ w : Word,
    (opField w).toNat = w.toNat % 2 ^ 4 ∧
    (aField w).toNat = w.toNat / 2 ^ 4 % 2 ^ 6 ∧
    (bField w).toNat = w.toNat / 2 ^ 10 ∧
    w.toNat = (bField w).toNat * 2 ^ 10 + (aField w).toNat * 2 ^ 4 + (opField w).toNat ∧
    (opField w ≠ 0 → ∃ op, op.bits = opField w ∧ decodeHead w = .basic op (aField w) (bField w) ∧
      ∀ ws wsb rest a b, takeOperand (aField w) ws = some (a, wsb) → takeOperand (bField w) wsb = some (b, rest) →
        decode (w :: ws) = .ok (op.instr a b) rest)

/-- 30_encoding.md, extended format. Its operand code is `w[15:10]`, its extended opcode `w[9:4]`, and only the operand takes an
extension word. That a list which ends before that word answers `truncated` is the model's choice (log entry 18). -/
def Obligations.ExtendedWordFields : Prop :=
  ∀ (w : Word) (ws : List Word), w.toNat % 2 ^ 4 = 0 →
    w.toNat = (bField w).toNat * 2 ^ 10 + (aField w).toNat * 2 ^ 4 ∧
    (decodeHead w = .jsr (bField w) ∨ decodeHead w = .unassigned (aField w) (bField w)) ∧
    decode (w :: ws) =
      match takeOperand (bField w) ws with
      | none => .truncated
      | some (a, rest) => if aField w = 1 then .ok (.jsr a) rest else .unassigned (aField w) a rest

/-- R47: the key of an instruction word. -/
def Obligations.KeyOfInstructionWord : Prop :=
  ∀ w : Word,
    (w.toNat % 16 ≠ 0 → (decodeHead w).key.toNat = w.toNat % 16) ∧
    (w.toNat % 16 = 0 → (decodeHead w).key = 0xFF00 ||| BitVec.ofNat 16 (w.toNat / 16 % 64)) ∧
    (w.toNat % 16 = 0 → 0xFF00 ≤ (decodeHead w).key.toNat ∧ (decodeHead w).key.toNat ≤ 0xFF3F)

/-- R48: the basic opcode map with its costs; every value of `op` from 0x1 to 0xF is assigned. -/
def Obligations.BasicOpcodeMapAndCosts : Prop :=
  (∀ op : BitVec 4, op ≠ 0 → (BasicOp.ofBits op).isSome = true) ∧
  ∀ (a b : Operand) (op : BasicOp), ∃ ws,
    encode (op.instr a b) = (operandCode b ++ operandCode a ++ op.bits) :: ws ∧
    (decodeHead (operandCode b ++ operandCode a ++ op.bits)).key.toNat = op.bits.toNat ∧
    (op.bits.toNat, op.instr a b, cost (op.instr a b)) ∈
      [(0x1, Instr.set a b, 1), (0x2, .add a b, 2), (0x3, .sub a b, 2), (0x4, .mul a b, 2), (0x5, .div a b, 3),
       (0x6, .mod a b, 3), (0x7, .shl a b, 2), (0x8, .shr a b, 2), (0x9, .and a b, 1), (0xA, .bor a b, 1),
       (0xB, .xor a b, 1), (0xC, .ife a b, 2), (0xD, .ifn a b, 2), (0xE, .ifg a b, 2), (0xF, .ifb a b, 2)]

/-- Words written out from 30_encoding.md, instruction formats, operand codes and opcode map, and the instructions they stand for
(sanity). They are those of 95_test_vectors.md, section 1.4, and of the examples of SET (41_arithmetic.md), AND (42_bitwise.md)
and IFG (43_conditional.md). -/
def Obligations.SpecWordsDecode : Prop :=
  decode [0xA861] = .ok (.set (.reg .i) (.short 10)) [] ∧
  decode [0x7C01, 0x0030] = .ok (.set (.reg .a) (.long 0x0030)) [] ∧
  decode [0x85C3] = .ok (.sub (.reg .pc) (.short 1)) [] ∧
  decode [0x61C1] = .ok (.set (.reg .pc) .pop) [] ∧
  decode [0x7C10, 0x0010] = .ok (.jsr (.long 0x0010)) [] ∧
  decode [0x7DE1, 0x1000, 0x0020] = .ok (.set (.abs 0x1000) (.long 0x0020)) [] ∧
  decode [0x0409] = .ok (.and (.reg .a) (.reg .b)) [] ∧
  decode [0x840E] = .ok (.ifg (.reg .a) (.short 1)) [] ∧
  decode [0x0000] = .unassigned 0x00 (.reg .a) []

/-- R57: `Resolve(c)` for all 64 codes, with the extension word it fetches and the tick it makes. Clauses by range of the
code; the extension word is the word at PC. The last two clauses: the register names by position, and reading such a register
before or after the `Fetch` makes no difference. -/
def Obligations.ResolveByOperandCode : Prop :=
  ∀ (c : BitVec 6) (s : State),
    let n := s.readWord (s.getReg .pc)
    let r := fetchOperand c s
    let h := resolve r.1 r.2
    let moved := (s.setReg .pc (s.getReg .pc + 1)).tick 1
    (c.toNat ≤ 0x07 → h = .reg (gregOf c.toNat).toReg ∧ r.2 = s) ∧
    (0x08 ≤ c.toNat ∧ c.toNat ≤ 0x0F → h = .mem (s.getReg (gregOf (c.toNat - 0x08)).toReg) ∧ r.2 = s) ∧
    (0x10 ≤ c.toNat ∧ c.toNat ≤ 0x17 →
      h = .mem (s.getReg (gregOf (c.toNat - 0x10)).toReg + n) ∧ r.2 = moved) ∧
    (c.toNat = 0x18 ∨ c.toNat = 0x1A → h = .stack none ∧ r.2 = s) ∧
    (c.toNat = 0x19 → h = .peek ∧ r.2 = s) ∧
    (c.toNat = 0x1B → h = .reg .sp ∧ r.2 = s) ∧
    (c.toNat = 0x1C → h = .reg .pc ∧ r.2 = s) ∧
    (c.toNat = 0x1D → h = .reg .o ∧ r.2 = s) ∧
    (c.toNat = 0x1E → h = .mem n ∧ r.2 = moved) ∧
    (c.toNat = 0x1F → h = .lit n ∧ r.2 = moved) ∧
    (0x20 ≤ c.toNat → h = .lit (BitVec.ofNat 16 (c.toNat - 0x20)) ∧ r.2 = s) ∧
    (List.range 8).map (fun k => (gregOf k).toReg) = [.a, .b, .c, .x, .y, .z, .i, .j] ∧
    (∀ g : GReg, s.fetch.2.getReg g.toReg = s.getReg g.toReg)

/-- R43: immediate and operand assembly: a short literal is the code minus 0x20, a next-word literal and an absolute address are
the whole extension word, an indexed address is the sum modulo 0x10000, so offset `0x10000 - k` addresses `register - k`. -/
def Obligations.ImmediateAssembly : Prop :=
  ∀ (c : BitVec 6) (n : Word) (s : State),
    (0x20 ≤ c.toNat → ∃ v : Word, resolve (operandOf c n) s = .lit v ∧ v.toNat + 0x20 = c.toNat ∧ v.toNat ≤ 31) ∧
    resolve (operandOf 0x1F n) s = .lit n ∧
    resolve (operandOf 0x1E n) s = .mem n ∧
    (0x10 ≤ c.toNat ∧ c.toNat ≤ 0x17 → ∃ (g : GReg) (addr : Word), g = gregOf (c.toNat - 0x10) ∧
      resolve (operandOf c n) s = .mem addr ∧
      addr.toNat = ((s.getReg g.toReg).toNat + n.toNat) % 0x10000 ∧
      (∀ k : Word, k ≠ 0 → n.toNat = 0x10000 - k.toNat → addr = s.getReg g.toReg - k))

/-- 30_encoding.md, extension-word order: a's word is at `wrap16(p + 1)` and b's at `wrap16(p + 2)`; when only b needs one, it
is at `wrap16(p + 1)`. -/
def Obligations.ExtensionWordOrder : Prop :=
  ∀ (s : State) (op : BasicOp) (ca cb : BitVec 6),
    let p := s.getReg .pc
    decodeHead (s.readWord p) = .basic op ca cb →
    (fetchInstr s).1 = .instr (op.instr
        (operandOf ca (if takesWord ca then s.readWord (p + 1) else 0))
        (operandOf cb (if takesWord cb then (if takesWord ca then s.readWord (p + 2) else s.readWord (p + 1)) else 0))) ∧
    (fetchInstr s).2 = s.advanced ((if takesWord ca then 1 else 0) + (if takesWord cb then 1 else 0))

/-! ## Memory, stack, handles -/

/-- R26: offset n aliases offset n mod 0x10000 on every access, and no access fails; the register-plus-offset sum, PC and SP
wrap modulo 0x10000. -/
def Obligations.MemoryAccessWraps : Prop :=
  ∀ (m : Memory) (n k : Nat) (v : Word) (s : State) (g : GReg) (e : Word),
    (∃ addr : Word, resolve (.idx g e) s = .mem addr ∧
      addr.toNat = ((s.getReg g.toReg).toNat + e.toNat) % 0x10000) ∧
    (s.fetch.2.getReg .pc).toNat = ((s.getReg .pc).toNat + 1) % 0x10000 ∧
    (s.pop.2.getReg .sp).toNat = ((s.getReg .sp).toNat + 1) % 0x10000 ∧
    (s.pushAddress).toNat = ((s.getReg .sp).toNat + 0xFFFF) % 0x10000 ∧
    m.read n = m.read (n % 0x10000) ∧
    m.write n v = m.write (n % 0x10000) v ∧
    (m.write n v).read k = if k % 0x10000 = n % 0x10000 then v else m.read k

/-- The canonical form of memory (the model's representation, log entry 1): memories that read alike are equal data. -/
def Obligations.CanonicalMemoriesThatReadAlikeAreEqual : Prop :=
  ∀ m m' : Memory, m.wf = true → m'.wf = true → (∀ n, n < 0x10000 → m.read n = m'.read n) → m = m'

/-- R54: `Fetch()`. It never ticks the cycle counter by itself; the instruction word and every extension word are read by it. -/
def Obligations.FetchReadsAndAdvancesPc : Prop :=
  ∀ s : State,
    s.fetch.1 = s.mem.read (s.getReg .pc).toNat ∧
    (s.fetch.2.getReg .pc).toNat = ((s.getReg .pc).toNat + 1) % 0x10000 ∧
    (∀ r, r ≠ .pc → s.fetch.2.getReg r = s.getReg r) ∧
    s.fetch.2.mem = s.mem ∧ s.fetch.2.cycles = s.cycles ∧ s.fetch.2.skip = s.skip ∧ s.fetch.2.status = s.status ∧
    (∀ c, takesWord c = true → fetchOperand c s = (operandOf c s.fetch.1, s.fetch.2.tick 1)) ∧
    (∀ op ca cb, decodeHead s.fetch.1 = .basic op ca cb → ∃ a b, (fetchInstr s).1 = .instr (op.instr a b)) ∧
    (∀ c, decodeHead s.fetch.1 = .jsr c → ∃ a, (fetchInstr s).1 = .instr (.jsr a)) ∧
    (∀ ext c, decodeHead s.fetch.1 = .unassigned ext c → ∃ a, (fetchInstr s).1 = .unassigned ext a)

/-- R60: the stack primitives, and a pop after a push. -/
def Obligations.StackPrimitives : Prop :=
  ∀ (s : State) (v : Word),
    ((s.push v).getReg .sp).toNat = ((s.getReg .sp).toNat + 0xFFFF) % 0x10000 ∧
    (∀ r, r ≠ .sp → (s.push v).getReg r = s.getReg r) ∧
    (∀ k : Word, (s.push v).readWord k = if k = s.getReg .sp - 1 then v else s.readWord k) ∧
    s.pop.1 = s.readWord (s.getReg .sp) ∧
    (s.pop.2.getReg .sp).toNat = ((s.getReg .sp).toNat + 1) % 0x10000 ∧
    (∀ r, r ≠ .sp → s.pop.2.getReg r = s.getReg r) ∧ s.pop.2.mem = s.mem ∧
    (s.push v).pop.1 = v ∧ (s.push v).pop.2.getReg .sp = s.getReg .sp

/-- 40_execution.md, stack-slot handle: the first get pops, later gets on the same handle answer the cached word and pop
nothing; a set pushes and does not read the cache. -/
def Obligations.StackSlotHandleCachesItsPop : Prop :=
  ∀ (s u : State) (cache : Option Word) (v : Word),
    let g := (Handle.stack none).get s
    g.value = s.readWord (s.getReg .sp) ∧ g.state.getReg .sp = s.getReg .sp + 1 ∧ g.state.mem = s.mem ∧
    (g.handle.get u).value = g.value ∧ (g.handle.get u).state = u ∧ (g.handle.get u).handle = g.handle ∧
    (Handle.stack cache).set v s = s.push v

/-- R59 and R63: a memory-address handle reads and writes the address fixed at resolution, whatever its register becomes; a
literal, from code 0x1F or a short code, answers its number and discards writes. -/
def Obligations.MemoryAndLiteralHandles : Prop :=
  ∀ (s : State) (addr n v : Word) (r : Reg) (w : Word),
    (Handle.mem addr).get s = ⟨s.readWord addr, .mem addr, s⟩ ∧
    (Handle.mem addr).set v s = s.writeWord addr v ∧
    ((Handle.mem addr).get (s.setReg r w)).value = s.readWord addr ∧
    (∀ g, resolve (.ind g) s = .mem (s.getReg g.toReg)) ∧
    resolve (operandOf 0x1F n) s = .lit n ∧
    (∀ c : BitVec 6, 0x20 ≤ c.toNat → resolve (operandOf c n) s = .lit (BitVec.ofNat 16 (c.toNat - 0x20))) ∧
    (Handle.lit n).get s = ⟨n, .lit n, s⟩ ∧
    (Handle.lit n).set v s = s

/-! ## Reset and the host -/

/-- 10_state.md, reset values (the counter, the skip flag and the fault record by the spec's decision D11, log entry 10). -/
def Obligations.ResetValues : Prop :=
  (∀ r, State.reset.getReg r = if r = .sp then 0xFFFF else 0) ∧
  (∀ n, State.reset.mem.read n = 0) ∧
  State.reset.cycles = 0 ∧ State.reset.skip = false ∧ State.reset.status = .idle ∧
  (∀ s, hostReset s = State.reset)

/-- R34: wipe sets every word to 0, and reset performs a wipe. -/
def Obligations.WipeZeroesMemory : Prop :=
  ∀ s : State, (∀ n, hostReadMemory n (hostWipe s) = 0) ∧ (hostReset s).mem = (hostWipe s).mem ∧
    (hostWipe s).regs = s.regs ∧ (hostWipe s).cycles = s.cycles ∧ (hostWipe s).skip = s.skip ∧
    (hostWipe s).status = s.status

/-- R35: a host read of any natural offset answers `M[n mod 0x10000]`. -/
def Obligations.HostMemoryReadWraps : Prop :=
  ∀ (s : State) (n : Nat) (v : Word),
    hostReadMemory n s = s.readWord (BitVec.ofNat 16 n) ∧
    hostReadMemory 0x0001 { s with mem := s.mem.write 0x10001 v } = v ∧
    (∀ k : Nat, hostReadMemory (n + 0x10000 * k) s = hostReadMemory n s)

/-- R33: load. The last word at an offset modulo 0x10000 stays, every other offset is untouched, and so is all else. -/
def Obligations.LoadStoresTheWords : Prop :=
  ∀ (words : List Int) (s : State),
    (∀ i : Nat, ∀ h : i < words.length,
      (∀ j, i < j → j < words.length → j % 0x10000 ≠ i % 0x10000) →
      hostReadMemory i (hostLoad words s) = BitVec.ofInt 16 words[i]) ∧
    (∀ n : Nat, (∀ i, i < words.length → i % 0x10000 ≠ n % 0x10000) →
      hostReadMemory n (hostLoad words s) = hostReadMemory n s) ∧
    (hostLoad words s).regs = s.regs ∧ (hostLoad words s).cycles = s.cycles ∧ (hostLoad words s).skip = s.skip ∧
    (hostLoad words s).status = s.status

/-- 70_reset_and_hazards.md, run: it is the while loop (the spec's decision D13, log entry 12). -/
def Obligations.RunIsTheWhileLoop : Prop :=
  ∀ (maxCycles : Nat) (s : State),
    hostRun maxCycles s =
      if s.status = .idle ∧ s.cycles < maxCycles then hostRun maxCycles (hostStep s) else s

/-- 70_reset_and_hazards.md, run and end of a run: a run ends Faulted or with the budget met, and one that ends
Idle overshoots by at most 4; a run whose budget is met takes no step (the spec's decision D13, log entry 12). -/
def Obligations.RunEndsWithinTheBudget : Prop :=
  ∀ (maxCycles : Nat) (s : State),
    ((hostRun maxCycles s).status ≠ .idle ∨ maxCycles ≤ (hostRun maxCycles s).cycles) ∧
    (maxCycles ≤ s.cycles → hostRun maxCycles s = s) ∧
    (s.cycles < maxCycles → (hostRun maxCycles s).status = .idle → (hostRun maxCycles s).cycles ≤ maxCycles + 4)

/-- 60_exceptions.md, leaving a fault, and 40_execution.md: in Faulted a step or a run does nothing, and no operation but reset
leaves it (the spec's decision D8, log entry 2). -/
def Obligations.FaultedIsLeftOnlyByReset : Prop :=
  ∀ (s : State) (op : HostOp), s.status ≠ .idle →
    step s = .next s ∧ (∀ n, hostRun n s = s) ∧
    (op ≠ .reset → (hostApply op s).status = s.status) ∧ (hostApply .reset s).status = .idle

/-- 10_state.md, invariants: the counter never decreases between resets, whatever the host does. -/
def Obligations.CyclesNeverDecreaseBetweenResets : Prop :=
  ∀ (s : State) (op : HostOp), op ≠ .reset → s.cycles ≤ (hostApply op s).cycles

/-! ## The step -/

/-- A step runs the decoded instruction: when the words at PC decode to `i`, the step is `exec i` on the state whose PC is past
the instruction's words and whose counter has one tick per extension word (40_execution.md, the step). -/
def Obligations.StepRunsTheDecodedInstruction : Prop :=
  ∀ (s : State) (i : Instr) (rest : List Word), s.status = .idle → s.skip = false →
    decode s.window = .ok i rest → step s = exec i (s.advanced i.extCount)

/-- 40_execution.md, skip check: the words are consumed and ticked, one more tick, the flag is cleared, nothing runs, also for
an unassigned key (the spec's decision D7 and its resolutions C1 and C2, log entries 4 and 5). -/
def Obligations.StepSkipsOneInstruction : Prop :=
  ∀ s : State, s.status = .idle → s.skip = true →
    (∀ i rest, decode s.window = .ok i rest →
      step s = .next { s.advanced i.extCount with cycles := s.cycles + i.extCount + 1, skip := false }) ∧
    (∀ ext a rest, decode s.window = .unassigned ext a rest →
      step s = .next { s.advanced (extWords a).length with
        cycles := s.cycles + (extWords a).length + 1, skip := false })

/-- 60_exceptions.md, fault effect: the record holds kind UnknownOpcode, the key and the address of the instruction word; PC and the counter apart, nothing else changes. What PC and the counter hold after a fault is not claimed here: 60_exceptions.md
gives them, and 93_implementation_defined.md U4 asks that no claim depend on them (the spec's decisions D8 to D10, log entries 2
and 21). -/
def Obligations.StepFaultsOnUnassignedKey : Prop :=
  ∀ (s : State) (ext : BitVec 6) (a : Operand) (rest : List Word), s.status = .idle → s.skip = false →
    decode s.window = .unassigned ext a rest →
    ∃ t, step s = .next t ∧
      t.status = .faulted ⟨.unknownOpcode, BitVec.ofNat 16 (0xFF00 + ext.toNat), s.getReg .pc⟩ ∧
      (∀ r, r ≠ .pc → t.getReg r = s.getReg r) ∧ t.mem = s.mem ∧ t.skip = false

/-- 60_exceptions.md, conditions that are not faults, and priority: every step answers a next state; it is Faulted after an
Idle state exactly when no skip was pending and the word's key is unassigned (D7 and D8, log entries 2 and 5). -/
def Obligations.StepAlwaysCompletesAndFaultsOnlyOnUnknownKeys : Prop :=
  ∀ s : State, ∃ t, step s = .next t ∧
    (s.status = .idle →
      (t.status ≠ .idle ↔ s.skip = false ∧ ∃ ext a rest, decode s.window = .unassigned ext a rest))

/-- 40_execution.md, cycle accounting, with the table of 70_reset_and_hazards.md, timing (skipped words by the resolution
C1, log entry 4). The counter after a fault is not claimed (93_implementation_defined.md U4). -/
def Obligations.CycleAccountingOfAStep : Prop :=
  ∀ s t : State, s.status = .idle → step s = .next t →
    (∀ i rest, decode s.window = .ok i rest →
      t.cycles = s.cycles + (if s.skip then 1 else cost i) + i.extCount ∧ i.extCount ≤ 2 ∧
      1 ≤ cost i ∧ cost i + i.extCount ≤ 5) ∧
    (∀ ext a rest, s.skip = true → decode s.window = .unassigned ext a rest →
      t.cycles = s.cycles + 1 + (extWords a).length)

/-- Every step keeps the invariant: memory in canonical form, which is the model's representation (log entry 1), and by the
spec's decisions D8 and D10 a legal fault record and no skip pending in Faulted (log entries 2 and 21). -/
def Obligations.StepKeepsTheMachineInvariant : Prop :=
  ∀ s t : State, s.Inv → step s = .next t → t.Inv

/-- The invariant holds at reset: memory in the model's canonical form (log entry 1), and the skip flag and the status that the
spec's decision D11 gives reset (log entry 10). -/
def Obligations.ResetMeetsTheMachineInvariant : Prop := State.reset.Inv

/-- Every host operation, a run of any budget among them, keeps the invariant. The canonical form is the model's representation
(log entry 1); the record and Faulted are by the spec's decisions D8 and D10 (log entries 2 and 21), the list of operations by
D14 (log entry 13). -/
def Obligations.HostOperationsKeepTheMachineInvariant : Prop :=
  ∀ (s : State) (op : HostOp), s.Inv → (hostApply op s).Inv

/-- 10_state.md, invariants of the skip flag: a step that starts with the flag set ends with it clear; a step that starts with it
clear ends with it clear unless it ran a conditional instruction. -/
def Obligations.SkipLastsOneInstruction : Prop :=
  ∀ s t : State, s.status = .idle → step s = .next t →
    (s.skip = true → t.skip = false) ∧
    (s.skip = false → t.skip = true →
      ∃ i rest, decode s.window = .ok i rest ∧ isConditional i = true)

/-! ## What each instruction does: `exec` answers the next state the rule gives, for every operand form. The state `s` is the
one after fetch and resolution. Operands are read once each, a then b (the spec's decisions D1, D2, D4, D20, log entry 6). -/

/-- 41_arithmetic.md, SET: only b is read (D2, log entry 6). -/
def Obligations.SetEffect : Prop :=
  ∀ (a b : Operand) (s : State),
    exec (.set a b) s = .next ((storeOperand a (operandValue b s) s (afterRead b s)).tick 1)

/-- 41_arithmetic.md, ADD: the write to a, then O (D3, log entry 7). -/
def Obligations.AddEffect : Prop :=
  ∀ (a b : Operand) (s : State),
    let va := operandValue a s
    let vb := operandValue b (afterRead a s)
    let read := afterRead b (afterRead a s)
    exec (.add a b) s = .next (((storeOperand a (va + vb) s read).setReg .o
      (if va.toNat + vb.toNat < 0x10000 then 0 else 1)).tick 2)

/-- 41_arithmetic.md, SUB: the write to a, then O (D3, log entry 7). -/
def Obligations.SubEffect : Prop :=
  ∀ (a b : Operand) (s : State),
    let va := operandValue a s
    let vb := operandValue b (afterRead a s)
    let read := afterRead b (afterRead a s)
    exec (.sub a b) s = .next (((storeOperand a (va - vb) s read).setReg .o
      (if va.toNat < vb.toNat then 0xFFFF else 0)).tick 2)

/-- 41_arithmetic.md, MUL: the low word to a, then the high word to O (D3, log entry 7). -/
def Obligations.MulEffect : Prop :=
  ∀ (a b : Operand) (s : State),
    let va := operandValue a s
    let vb := operandValue b (afterRead a s)
    let read := afterRead b (afterRead a s)
    ∃ lo hi : Word, hi.toNat * 0x10000 + lo.toNat = va.toNat * vb.toNat ∧
      exec (.mul a b) s = .next (((storeOperand a lo s read).setReg .o hi).tick 2)

/-- 41_arithmetic.md, DIV: the quotient to a, then the fraction word to O; both 0 for a zero divisor, and a is read all the same
(D2 and D3, log entries 6 and 7). -/
def Obligations.DivEffect : Prop :=
  ∀ (a b : Operand) (s : State),
    let va := operandValue a s
    let vb := operandValue b (afterRead a s)
    let read := afterRead b (afterRead a s)
    ∃ q f : Word,
      (vb.toNat = 0 → q = 0 ∧ f = 0) ∧
      (vb.toNat ≠ 0 → q.toNat = va.toNat / vb.toNat ∧
        f.toNat = va.toNat % vb.toNat * 0x10000 / vb.toNat) ∧
      exec (.div a b) s = .next (((storeOperand a q s read).setReg .o f).tick 3)

/-- 41_arithmetic.md, MOD: O is written only for a zero divisor, and then with 0 (D2, log entry 6). -/
def Obligations.ModEffect : Prop :=
  ∀ (a b : Operand) (s : State),
    let va := operandValue a s
    let vb := operandValue b (afterRead a s)
    let read := afterRead b (afterRead a s)
    (vb.toNat = 0 → exec (.mod a b) s = .next (((storeOperand a 0 s read).setReg .o 0).tick 3)) ∧
    (vb.toNat ≠ 0 →
      exec (.mod a b) s = .next ((storeOperand a (BitVec.ofNat 16 (va.toNat % vb.toNat)) s read).tick 3))

/-- 41_arithmetic.md, SHL: the low word to a, then the bits shifted out to O (D3, log entry 7). -/
def Obligations.ShlEffect : Prop :=
  ∀ (a b : Operand) (s : State),
    let va := operandValue a s
    let vb := operandValue b (afterRead a s)
    let read := afterRead b (afterRead a s)
    ∃ lo out : Word, out.toNat * 0x10000 + lo.toNat = va.toNat * 2 ^ vb.toNat % 2 ^ 32 ∧
      exec (.shl a b) s = .next (((storeOperand a lo s read).setReg .o out).tick 2)

/-- 41_arithmetic.md, SHR: the bits shifted out to O first, then a; above a count of 16 by the spec's decision D6 (log entries 7
and 9). -/
def Obligations.ShrEffect : Prop :=
  ∀ (a b : Operand) (s : State),
    let va := operandValue a s
    let vb := operandValue b (afterRead a s)
    let read := afterRead b (afterRead a s)
    ∃ hi out : Word, hi.toNat * 0x10000 + out.toNat = va.toNat * 0x10000 / 2 ^ vb.toNat ∧
      exec (.shr a b) s = .next ((storeOperand a hi s (read.setReg .o out)).tick 2)

/-- 42_bitwise.md: AND, BOR, XOR write only their destination. -/
def Obligations.BitwiseEffect : Prop :=
  ∀ (a b : Operand) (s : State),
    let va := operandValue a s
    let vb := operandValue b (afterRead a s)
    let read := afterRead b (afterRead a s)
    ∃ x y z : Word,
      (∀ k, x.getLsbD k = (va.getLsbD k && vb.getLsbD k)) ∧
      (∀ k, y.getLsbD k = (va.getLsbD k || vb.getLsbD k)) ∧
      (∀ k, z.getLsbD k = (va.getLsbD k != vb.getLsbD k)) ∧
      exec (.and a b) s = .next ((storeOperand a x s read).tick 1) ∧
      exec (.bor a b) s = .next ((storeOperand a y s read).tick 1) ∧
      exec (.xor a b) s = .next ((storeOperand a z s read).tick 1)

/-- 43_conditional.md: the four tests. The skip flag is set when the test calls for a skip, else kept; stack slots are popped. -/
def Obligations.ConditionalEffect : Prop :=
  ∀ (a b : Operand) (s : State),
    let va := operandValue a s
    let vb := operandValue b (afterRead a s)
    let read := (afterRead b (afterRead a s)).tick 2
    exec (.ife a b) s = .next (if va = vb then read else { read with skip := true }) ∧
    exec (.ifn a b) s = .next (if va = vb then { read with skip := true } else read) ∧
    exec (.ifg a b) s = .next (if vb.toNat < va.toNat then read else { read with skip := true }) ∧
    exec (.ifb a b) s = .next (if va.toNat &&& vb.toNat = 0 then { read with skip := true } else read)

/-- 44_extended.md, JSR: push PC, then read a, then jump; an address in a register is fixed before the push (D5, log entry 8). -/
def Obligations.JsrEffect : Prop :=
  ∀ (a : Operand) (s : State),
    let pushed := storeOperand .push (s.getReg .pc) s s
    exec (.jsr a) s = .next (((afterRead a pushed).setReg .pc (operandValue a pushed)).tick 2)

/-! ## Frames -/

/-- What ADD, SUB, MUL, DIV, SHL and SHR leave unchanged: all but the destination, O, and SP where an operand is a stack slot.
The store address is that of the state after both reads; DIV reads a for a zero divisor too (the spec's decision D2, log
entry 6). -/
def Obligations.ArithmeticFrame : Prop :=
  ∀ (a b : Operand) (s t : State) (i : Instr),
    i ∈ [Instr.add a b, .sub a b, .mul a b, .div a b, .shl a b, .shr a b] → exec i s = .next t →
    (∀ r, a ≠ .reg r → r ≠ .o → ¬(r = .sp ∧ (isStackSlot a || isStackSlot b) = true) → t.getReg r = s.getReg r) ∧
    t.skip = s.skip ∧ t.status = s.status ∧
    (∀ k : Word, (resolve a s).storeAddress (readBoth a b s).state ≠ some k → t.readWord k = s.readWord k)

/-- What MOD leaves unchanged: as above, and O too unless the divisor read is 0 or O is the destination. MOD reads a for a zero
divisor too (the spec's decision D2, log entry 6). -/
def Obligations.ModFrame : Prop :=
  ∀ (a b : Operand) (s t : State), exec (.mod a b) s = .next t →
    (∀ r, a ≠ .reg r → ¬(r = .o ∧ (readBoth a b s).vb = 0) →
      ¬(r = .sp ∧ (isStackSlot a || isStackSlot b) = true) → t.getReg r = s.getReg r) ∧
    t.skip = s.skip ∧ t.status = s.status ∧
    (∀ k : Word, (resolve a s).storeAddress (readBoth a b s).state ≠ some k → t.readWord k = s.readWord k)

/-- What SET leaves unchanged: a is not read, so the store address is that of the state after b is read. -/
def Obligations.SetFrame : Prop :=
  ∀ (a b : Operand) (s t : State), exec (.set a b) s = .next t →
    (∀ r, a ≠ .reg r → ¬(r = .sp ∧ (isStackSlot a || isStackSlot b) = true) → t.getReg r = s.getReg r) ∧
    t.skip = s.skip ∧ t.status = s.status ∧
    (∀ k : Word, (resolve a s).storeAddress ((resolve b s).get s).state ≠ some k → t.readWord k = s.readWord k)

/-- What AND, BOR and XOR leave unchanged: all but the destination, and SP where an operand is a stack slot; never O. -/
def Obligations.BitwiseFrame : Prop :=
  ∀ (a b : Operand) (s t : State) (i : Instr),
    i ∈ [Instr.and a b, .bor a b, .xor a b] → exec i s = .next t →
    (∀ r, a ≠ .reg r → ¬(r = .sp ∧ (isStackSlot a || isStackSlot b) = true) → t.getReg r = s.getReg r) ∧
    t.skip = s.skip ∧ t.status = s.status ∧
    (∀ k : Word, (resolve a s).storeAddress (readBoth a b s).state ≠ some k → t.readWord k = s.readWord k)

/-- What the conditionals leave unchanged: every register but SP where an operand is a stack slot, all of memory, the status;
the skip flag may only be set. -/
def Obligations.ConditionalFrame : Prop :=
  ∀ (a b : Operand) (s t : State) (i : Instr),
    i ∈ [Instr.ife a b, .ifn a b, .ifg a b, .ifb a b] → exec i s = .next t →
    (∀ r, ¬(r = .sp ∧ (isStackSlot a || isStackSlot b) = true) → t.getReg r = s.getReg r) ∧
    (s.skip = true → t.skip = true) ∧ t.status = s.status ∧ t.mem = s.mem

/-- What JSR leaves unchanged: every register but PC and SP, every word but the one pushed, the skip flag, the status. The word
pushed is the one below SP even where the operand pops, since the push comes before the read (the spec's decision D5, log
entry 8). -/
def Obligations.JsrFrame : Prop :=
  ∀ (a : Operand) (s t : State), exec (.jsr a) s = .next t →
    (∀ r, r ≠ .pc → r ≠ .sp → t.getReg r = s.getReg r) ∧ t.skip = s.skip ∧ t.status = s.status ∧
    (∀ k : Word, k ≠ s.pushAddress → t.readWord k = s.readWord k)

/-! ## Whole-machine rules -/

/-- R14: the general registers are numbered by position, hold what is written to them, and no instruction reads or writes one
except through its operand codes: the register itself, the word it addresses, the word it plus the extension word addresses. -/
def Obligations.GeneralRegistersOnlyThroughOperandCodes : Prop :=
  (∀ (k : Nat) (n : Word), k < 8 →
    operandOf (BitVec.ofNat 6 k) n = .reg (gregOf k).toReg ∧
    operandOf (BitVec.ofNat 6 (0x08 + k)) n = .ind (gregOf k) ∧
    operandOf (BitVec.ofNat 6 (0x10 + k)) n = .idx (gregOf k) n) ∧
  (∀ (g : GReg) (n : Word) (s : State), resolve (.reg g.toReg) s = .reg g.toReg ∧
    resolve (.ind g) s = .mem (s.getReg g.toReg) ∧ resolve (.idx g n) s = .mem (s.getReg g.toReg + n)) ∧
  (List.range 8).map gregOf = [.a, .b, .c, .x, .y, .z, .i, .j] ∧
  (∀ (g : GReg) (s : State) (v : Word), (s.setReg g.toReg v).getReg g.toReg = v) ∧
  (∀ (i : Instr) (g : GReg) (s t : State), exec i s = .next t →
    ((operandsOf i).1 ≠ .reg g.toReg → t.getReg g.toReg = s.getReg g.toReg) ∧
    (instrNames g.toReg i = false → ∀ v, exec i (s.setReg g.toReg v) = .next (t.setReg g.toReg v)))

/-- 10_state.md, overflow register: no instruction reads O implicitly. With no O operand, two states that differ only in O go to
states that differ at most in O. -/
def Obligations.NoInstructionReadsOImplicitly : Prop :=
  ∀ (i : Instr) (s t : State) (v : Word), instrNames .o i = false → exec i s = .next t →
    ∃ t', exec i (s.setReg .o v) = .next t' ∧ t'.setReg .o 0 = t.setReg .o 0

/-- 10_state.md, overflow register, with the values of 41_arithmetic.md: which instructions write O, and what O then holds, also
with O as destination (the write order is the spec's decision D3, log entry 7; SHR above a count of 16 is D6, log entry 9; the
values read are those of D1, D2, D4, D20, log entry 6). -/
def Obligations.WritersOfO : Prop :=
  ∀ (a b : Operand) (s t : State),
    let va := operandValue a s
    let vb := operandValue b (afterRead a s)
    let o := t.getReg .o
    (exec (.add a b) s = .next t → o = if va.toNat + vb.toNat < 0x10000 then 0 else 1) ∧
    (exec (.sub a b) s = .next t → o = if va.toNat < vb.toNat then 0xFFFF else 0) ∧
    (exec (.mul a b) s = .next t → o.toNat = va.toNat * vb.toNat / 0x10000) ∧
    (exec (.div a b) s = .next t →
      o.toNat = if vb.toNat = 0 then 0 else va.toNat * 0x10000 / vb.toNat % 0x10000) ∧
    (exec (.shl a b) s = .next t → o.toNat = va.toNat * 2 ^ vb.toNat / 0x10000 % 0x10000) ∧
    (exec (.shr a b) s = .next t → o.toNat =
      if a = .reg .o then va.toNat / 2 ^ vb.toNat else va.toNat * 0x10000 / 2 ^ vb.toNat % 0x10000) ∧
    (exec (.mod a b) s = .next t →
      (vb.toNat = 0 → o = 0) ∧
      (vb.toNat ≠ 0 → a ≠ .reg .o → o = s.getReg .o) ∧
      (vb.toNat ≠ 0 → a = .reg .o → o.toNat = va.toNat % vb.toNat)) ∧
    (a = .reg .o →
      (exec (.set a b) s = .next t → o = operandValue b s) ∧
      (exec (.and a b) s = .next t → o = va &&& vb) ∧
      (exec (.bor a b) s = .next t → o = va ||| vb) ∧
      (exec (.xor a b) s = .next t → o = va ^^^ vb)) ∧
    (∀ i, i ∈ [Instr.set a b, .and a b, .bor a b, .xor a b, .ife a b, .ifn a b, .ifg a b, .ifb a b, .jsr a] →
      exec i s = .next t → (isConditional i = true ∨ i = .jsr a ∨ a ≠ .reg .o) → o = s.getReg .o)

/-- 60_exceptions.md, counters: no operand code reads or writes the counter, so a program cannot see it. -/
def Obligations.ProgramsCannotSeeTheCycleCounter : Prop :=
  ∀ (s t : State) (n : Nat), step s = .next t →
    ∃ d, t.cycles = s.cycles + d ∧ step { s with cycles := n } = .next { t with cycles := n + d }

/-- 60_exceptions.md, observation points, all five (their positions by the spec's decision D17, their payloads and the empty one
of `after_execution` by log entry 14). A step that runs `i` fires `before_step` on the state before it, `before_execution` on the
fetched state with the cost ticked, `after_execution` and `after_step` on the state after it. A step that skips fires
`skipped_instruction` on the fetched state with the skip's tick and the flag clear. A faulting step fires `before_step` only, and
in Faulted nothing fires. Where a point is passed the instruction, it is passed the handles resolved after the fetch. -/
def Obligations.ObservationPointsOfAStep : Prop :=
  ∀ s t : State, step s = .next t →
    (s.status ≠ .idle → observations s = []) ∧
    (s.status = .idle → (observations s).head? = some ⟨.beforeStep, s, none⟩) ∧
    (s.status = .idle → t.status = .idle → (observations s).getLast? = some ⟨.afterStep, t, none⟩) ∧
    (s.status = .idle → t.status ≠ .idle → observations s = [⟨.beforeStep, s, none⟩]) ∧
    ((∃ o ∈ observations s, o.point = .skippedInstruction) ↔ s.status = .idle ∧ s.skip = true) ∧
    (∀ i rest, s.status = .idle → decode s.window = .ok i rest →
      let u := s.advanced i.extCount
      let passed : ObservedInstr :=
        ⟨.instr i, resolve (operandsOf i).1 u, (operandsOf i).2.map (fun b => resolve b u)⟩
      (s.skip = false → observations s =
        [⟨.beforeStep, s, none⟩, ⟨.beforeExecution, { u with cycles := u.cycles + cost i }, some passed⟩,
         ⟨.afterExecution, t, none⟩, ⟨.afterStep, t, none⟩]) ∧
      (s.skip = true → observations s =
        [⟨.beforeStep, s, none⟩, ⟨.skippedInstruction, { u with cycles := u.cycles + 1, skip := false }, some passed⟩,
         ⟨.afterStep, t, none⟩])) ∧
    (∀ ext a rest, s.status = .idle → s.skip = true → decode s.window = .unassigned ext a rest →
      let u := s.advanced (extWords a).length
      observations s =
        [⟨.beforeStep, s, none⟩,
         ⟨.skippedInstruction, { u with cycles := u.cycles + 1, skip := false },
          some ⟨.unassigned ext a, resolve a u, none⟩⟩,
         ⟨.afterStep, t, none⟩])

/-- 44_extended.md and 41_arithmetic.md: after JSR, `SET PC, POP` run in any later state whose SP and top word are those JSR left
goes back to the word after the JSR and restores SP (D5, log entry 8). -/
def Obligations.SetPcPopReturnsFromJsr : Prop :=
  ∀ (a : Operand) (s t u : State), isStackSlot a = false → exec (.jsr a) s = .next t →
    u.getReg .sp = t.getReg .sp → u.readWord (t.getReg .sp) = t.readWord (t.getReg .sp) →
    ∃ v, exec (.set (.reg .pc) .pop) u = .next v ∧ v.getReg .pc = s.getReg .pc ∧ v.getReg .sp = s.getReg .sp

/-- 20_memory.md, instruction-fetch coherence (the spec's decision D18, log entry 15): a word stored by SET where PC points is the
word the next fetch reads, and the first of the words the next step decodes. -/
def Obligations.StoreIsSeenByTheNextFetch : Prop :=
  ∀ (n : Word) (b : Operand) (s t : State), exec (.set (.abs n) b) s = .next t → t.getReg .pc = n →
    t.fetch.1 = operandValue b s ∧ t.window.head? = some (operandValue b s)
end

