-- ==== Sys2Proof/Laws/Encoding.lean ====
section
/-! SUPPORT. The fields of the words the encoder writes, and what an operand's code and extension word say. -/

namespace Sys2Proof

/-- A word as a number, put together from its fields (30_encoding.md R40). -/
theorem append_toNat (cb ca : BitVec 6) (op : BitVec 4) :
    (cb ++ ca ++ op).toNat = cb.toNat * 2 ^ 10 + ca.toNat * 2 ^ 4 + op.toNat := by
  rw [BitVec.toNat_append, BitVec.toNat_append, ← Nat.shiftLeft_add_eq_or_of_lt op.isLt,
    ← Nat.shiftLeft_add_eq_or_of_lt ca.isLt, Nat.shiftLeft_eq, Nat.shiftLeft_eq]
  omega

theorem opField_toNat (w : Word) : (opField w).toNat = w.toNat % 2 ^ 4 := by simp [opField]

theorem aField_toNat (w : Word) : (aField w).toNat = w.toNat / 2 ^ 4 % 2 ^ 6 := by
  simp [aField, Nat.shiftRight_eq_div_pow]

theorem bField_toNat (w : Word) : (bField w).toNat = w.toNat / 2 ^ 10 := by
  have := w.isLt
  simp [bField, Nat.shiftRight_eq_div_pow]
  omega

/-- The fields of a word put together from its fields (R40). -/
theorem opField_append (cb ca : BitVec 6) (op : BitVec 4) : opField (cb ++ ca ++ op) = op := by
  apply BitVec.eq_of_toNat_eq
  have := op.isLt
  rw [opField_toNat, append_toNat]
  omega

theorem aField_append (cb ca : BitVec 6) (op : BitVec 4) : aField (cb ++ ca ++ op) = ca := by
  apply BitVec.eq_of_toNat_eq
  have := op.isLt
  have := ca.isLt
  rw [aField_toNat, append_toNat]
  omega

theorem bField_append (cb ca : BitVec 6) (op : BitVec 4) : bField (cb ++ ca ++ op) = cb := by
  apply BitVec.eq_of_toNat_eq
  have := op.isLt
  have := ca.isLt
  rw [bField_toNat, append_toNat]
  omega

theorem ofBits_bits (op : BasicOp) : BasicOp.ofBits op.bits = some op := by cases op <;> rfl

/-- The operand code of a well-formed operand, with its extension word, names the operand (R42). -/
theorem operandOf_operandCode (a : Operand) (n : Word) (h : a.wf = true) (hn : ∀ m ∈ extWords a, m = n) :
    operandOf (operandCode a) n = a := by
  cases a with
  | reg r => cases r <;> rfl
  | ind g => cases g <;> rfl
  | idx g m => obtain rfl : m = n := hn m (by simp [extWords]); cases g <;> rfl
  | pop => rfl
  | peek => rfl
  | push => rfl
  | abs m => obtain rfl : m = n := hn m (by simp [extWords]); rfl
  | long m => obtain rfl : m = n := hn m (by simp [extWords]); rfl
  | short k =>
    have hk : k ≤ 31 := of_decide_eq_true h
    have : (BitVec.ofNat 6 (0x20 + k)).toNat = 0x20 + k := by simp; omega
    simp only [operandOf, operandCode, this]
    repeat rw [if_neg (by omega)]
    simp

/-- A code takes an extension word exactly where its operand carries one (R44). -/
theorem takesWord_operandCode (a : Operand) (h : a.wf = true) : takesWord (operandCode a) = decide (extWords a ≠ []) := by
  cases a with
  | reg r => cases r <;> rfl
  | ind g => cases g <;> rfl
  | idx g m => cases g <;> rfl
  | pop => rfl
  | peek => rfl
  | push => rfl
  | abs m => rfl
  | long m => rfl
  | short k =>
    have hk : k ≤ 31 := of_decide_eq_true h
    have : (BitVec.ofNat 6 (0x20 + k)).toNat = 0x20 + k := by simp; omega
    simp only [takesWord, operandCode, this, extWords]
    simp
    omega

/-- Taking a well-formed operand's words gives the operand back, and the words after it. -/
theorem takeOperand_operandCode (a : Operand) (ws : List Word) (h : a.wf = true) :
    takeOperand (operandCode a) (extWords a ++ ws) = some (a, ws) := by
  have ht := takesWord_operandCode a h
  cases hx : extWords a with
  | nil =>
    rw [hx] at ht
    have h0 : ∀ n, operandOf (operandCode a) n = a := fun n => operandOf_operandCode a n h (by simp [hx])
    cases ws <;> simp [takeOperand, ht, h0]
  | cons n t =>
    have : t = [] := by cases a <;> simp_all [extWords]
    subst this
    rw [hx] at ht
    simp [takeOperand, ht, operandOf_operandCode a n h (by simp [hx])]

/-- An operand decoded from a code is well formed, has that code, and carries `n` exactly where the code takes a word. -/
theorem operandOf_spec (c : BitVec 6) (n : Word) :
    (operandOf c n).wf = true ∧ operandCode (operandOf c n) = c ∧
      extWords (operandOf c n) = if takesWord c then [n] else [] := by
  revert c
  have key : ∀ c : BitVec 6, (operandOf c n).wf = true ∧ operandCode (operandOf c n) = c ∧
      extWords (operandOf c n) = if takesWord c then [n] else [] := by
    intro c
    obtain ⟨⟨k, hk⟩⟩ := c
    have hk' : k < 64 := hk
    interval_cases k <;> refine ⟨rfl, rfl, rfl⟩
  exact key

theorem operandOf_of_not_takesWord (c : BitVec 6) (n m : Word) (h : takesWord c = false) :
    operandOf c n = operandOf c m := by
  rw [← operandOf_operandCode (operandOf c n) m (operandOf_spec c n).1 (by simp [(operandOf_spec c n).2.2, h]),
    (operandOf_spec c n).2.1]

end Sys2Proof
end

