-- ==== Sys2Proof/Laws/Flags.lean ====
section
/-! SUPPORT. What the value computations of the instruction rules amount to (41_arithmetic.md R72 to R78, 43_conditional.md):
one lemma per rule, so that no later proof unfolds a shift or a wrap. -/

namespace Sys2Proof.Machine

/-- A power of two as an atom, so that linear arithmetic sees only its value. -/
theorem nat_div_lt_word (v : Word) (n : Nat) : v.toNat / n < 2 ^ 16 := lt_of_le_of_lt (Nat.div_le_self _ _) v.isLt

theorem addResult_eq (va vb : Word) : addResult va vb = va + vb := by
  apply BitVec.eq_of_toNat_eq
  simp [addResult, addExact, wrapNat, BitVec.toNat_add]

theorem addO_eq (va vb : Word) : addO va vb = if va.toNat + vb.toNat < 0x10000 then 0 else 1 := by
  by_cases h : va.toNat + vb.toNat < 0x10000
  · rw [if_pos h, addO, if_neg (by simp only [addExact]; omega)]
  · rw [if_neg h, addO, if_pos (by simp only [addExact]; omega)]

theorem subResult_eq (va vb : Word) : subResult va vb = va - vb := by
  apply BitVec.eq_of_toNat_eq
  have := va.isLt
  have := vb.isLt
  simp only [subResult, subExact, wrap16, BitVec.toNat_sub, BitVec.toNat_ofInt]
  omega

theorem subO_eq (va vb : Word) : subO va vb = if va.toNat < vb.toNat then 0xFFFF else 0 := by
  by_cases h : va.toNat < vb.toNat
  · rw [if_pos h, subO, if_pos (by simp only [subExact]; omega)]
  · rw [if_neg h, subO, if_neg (by simp only [subExact]; omega)]

/-- The two words MUL writes are the whole product (R74). -/
theorem mul_words (va vb : Word) :
    (mulO va vb).toNat * 0x10000 + (mulResult va vb).toNat = va.toNat * vb.toNat := by
  have : va.toNat * vb.toNat < 65536 * 65536 := Nat.mul_lt_mul'' va.isLt vb.isLt
  simp only [mulResult, mulO, mulExact, wrapNat, BitVec.toNat_ofNat, Nat.shiftRight_eq_div_pow]
  omega

theorem divResult_toNat (va vb : Word) : (divResult va vb).toNat = va.toNat / vb.toNat := by
  by_cases h : vb = 0
  · simp [divResult, h]
  · simp only [divResult, h, if_false, wrapNat, BitVec.toNat_ofNat]
    exact Nat.mod_eq_of_lt (nat_div_lt_word va _)

/-- The fraction word is the remainder's (R75). -/
theorem divO_toNat (va vb : Word) : (divO va vb).toNat = va.toNat % vb.toNat * 0x10000 / vb.toNat := by
  by_cases h : vb = 0
  · simp [divO, h]
  · have hv : 0 < vb.toNat := Nat.pos_of_ne_zero (fun e => h (BitVec.eq_of_toNat_eq e))
    have e : va.toNat * 2 ^ 16 = va.toNat % vb.toNat * 0x10000 + vb.toNat * (va.toNat / vb.toNat * 0x10000) := by
      rw [← Nat.mul_assoc, ← Nat.add_mul, Nat.mod_add_div, show (2 : Nat) ^ 16 = 0x10000 by rfl]
    simp only [divO, h, if_false, wrapNat, BitVec.toNat_ofNat, Nat.shiftLeft_eq]
    rw [e, Nat.add_mul_div_left _ _ hv, Nat.add_mul_mod_self_right]
    apply Nat.mod_eq_of_lt
    rw [Nat.div_lt_iff_lt_mul hv, Nat.mul_comm]
    exact Nat.mul_lt_mul_of_pos_left (Nat.mod_lt _ hv) (by decide)

theorem modResult_toNat (va vb : Word) (h : vb ≠ 0) : modResult va vb = BitVec.ofNat 16 (va.toNat % vb.toNat) := by
  simp only [modResult, h, if_false, wrapNat]

/-- The two words SHL writes are the low 32 bits of the shifted value (R77). -/
theorem shl_words (va vb : Word) :
    (shlO va vb).toNat * 0x10000 + (shlResult va vb).toNat = va.toNat * 2 ^ vb.toNat % 2 ^ 32 := by
  simp only [shlResult, shlO, shlExact, wrapNat, BitVec.toNat_ofNat, Nat.shiftRight_eq_div_pow, Nat.shiftLeft_eq]
  generalize va.toNat * 2 ^ vb.toNat = x
  omega

/-- The two words SHR writes are the 32 bits of the value shifted right in the upper half (R78). -/
theorem shr_words (va vb : Word) :
    (shrResult va vb).toNat * 0x10000 + (shrO va vb).toNat = va.toNat * 0x10000 / 2 ^ vb.toNat := by
  have hlt := nat_div_lt_word va (2 ^ vb.toNat)
  have hhi : va.toNat * 0x10000 / 2 ^ vb.toNat / 0x10000 = va.toNat / 2 ^ vb.toNat := by
    rw [Nat.div_div_eq_div_mul, Nat.mul_div_mul_right _ _ (by decide)]
  have hr : (shrResult va vb).toNat = va.toNat / 2 ^ vb.toNat := by
    simp only [shrResult, wrapNat, BitVec.toNat_ofNat, Nat.shiftRight_eq_div_pow]
    exact Nat.mod_eq_of_lt hlt
  have ho : (shrO va vb).toNat = va.toNat * 0x10000 / 2 ^ vb.toNat % 0x10000 := by
    unfold shrO
    split
    · next h =>
      have e : va.toNat * 0x10000 / 2 ^ vb.toNat = va.toNat * 2 ^ (16 - vb.toNat) := by
        have : (0x10000 : Nat) = 2 ^ (16 - vb.toNat) * 2 ^ vb.toNat := by
          rw [← Nat.pow_add, Nat.sub_add_cancel h]
        rw [this, ← Nat.mul_assoc, Nat.mul_div_cancel _ (Nat.two_pow_pos _)]
      rw [e]
      simp only [wrapNat, BitVec.toNat_ofNat, Nat.shiftLeft_eq]
    · next h =>
      have e : va.toNat * 0x10000 / 2 ^ vb.toNat = va.toNat / 2 ^ (vb.toNat - 16) := by
        have : 2 ^ vb.toNat = 2 ^ (vb.toNat - 16) * 0x10000 := by
          rw [show (0x10000 : Nat) = 2 ^ 16 by rfl, ← Nat.pow_add]
          congr 1
          omega
        rw [this, Nat.mul_div_mul_right _ _ (by decide)]
      rw [e]
      simp only [wrapNat, BitVec.toNat_ofNat, Nat.shiftRight_eq_div_pow]
  rw [hr, ho, ← hhi]
  generalize va.toNat * 0x10000 / 2 ^ vb.toNat = x
  omega

theorem ifgSkips_eq (va vb : Word) : ifgSkips va vb = !decide (vb.toNat < va.toNat) := by
  by_cases h : vb.toNat < va.toNat <;> simp only [ifgSkips, h, decide_true, decide_false, Bool.not_true, Bool.not_false] <;>
    first | exact decide_eq_false (by omega) | exact decide_eq_true (by omega)

theorem ifbSkips_eq (va vb : Word) : ifbSkips va vb = decide (va.toNat &&& vb.toNat = 0) := by
  simp only [ifbSkips, ← BitVec.toNat_inj, BitVec.toNat_and]
  rfl

end Sys2Proof.Machine
end

