-- ==== Sys2Proof/Laws/State.lean ====
section
/-! SUPPORT. One lemma per field per update of State, true by `rfl`, and the register laws, so that no later proof unfolds
a record update. -/

namespace Sys2Proof.Machine

@[simp] theorem State.setReg_regs (s : State) (r : Reg) (v : Word) : (s.setReg r v).regs = s.regs.set r v := rfl
@[simp] theorem State.setReg_mem (s : State) (r : Reg) (v : Word) : (s.setReg r v).mem = s.mem := rfl
@[simp] theorem State.setReg_cycles (s : State) (r : Reg) (v : Word) : (s.setReg r v).cycles = s.cycles := rfl
@[simp] theorem State.setReg_skip (s : State) (r : Reg) (v : Word) : (s.setReg r v).skip = s.skip := rfl
@[simp] theorem State.setReg_status (s : State) (r : Reg) (v : Word) : (s.setReg r v).status = s.status := rfl

@[simp] theorem State.writeWord_regs (s : State) (k v : Word) : (s.writeWord k v).regs = s.regs := rfl
@[simp] theorem State.writeWord_mem (s : State) (k v : Word) : (s.writeWord k v).mem = s.mem.write k.toNat v := rfl
@[simp] theorem State.writeWord_cycles (s : State) (k v : Word) : (s.writeWord k v).cycles = s.cycles := rfl
@[simp] theorem State.writeWord_skip (s : State) (k v : Word) : (s.writeWord k v).skip = s.skip := rfl
@[simp] theorem State.writeWord_status (s : State) (k v : Word) : (s.writeWord k v).status = s.status := rfl

@[simp] theorem State.tick_regs (s : State) (n : Nat) : (s.tick n).regs = s.regs := rfl
@[simp] theorem State.tick_mem (s : State) (n : Nat) : (s.tick n).mem = s.mem := rfl
@[simp] theorem State.tick_cycles (s : State) (n : Nat) : (s.tick n).cycles = s.cycles + n := rfl
@[simp] theorem State.tick_skip (s : State) (n : Nat) : (s.tick n).skip = s.skip := rfl
@[simp] theorem State.tick_status (s : State) (n : Nat) : (s.tick n).status = s.status := rfl

@[simp] theorem State.setSkip_regs (s : State) (b : Bool) : (s.setSkip b).regs = s.regs := rfl
@[simp] theorem State.setSkip_mem (s : State) (b : Bool) : (s.setSkip b).mem = s.mem := rfl
@[simp] theorem State.setSkip_cycles (s : State) (b : Bool) : (s.setSkip b).cycles = s.cycles := rfl
@[simp] theorem State.setSkip_skip (s : State) (b : Bool) : (s.setSkip b).skip = b := rfl
@[simp] theorem State.setSkip_status (s : State) (b : Bool) : (s.setSkip b).status = s.status := rfl

@[simp] theorem takeFault_regs (k : FaultKind) (v p : Word) (s : State) : (takeFault k v p s).regs = s.regs := rfl
@[simp] theorem takeFault_mem (k : FaultKind) (v p : Word) (s : State) : (takeFault k v p s).mem = s.mem := rfl
@[simp] theorem takeFault_cycles (k : FaultKind) (v p : Word) (s : State) : (takeFault k v p s).cycles = s.cycles := rfl
@[simp] theorem takeFault_skip (k : FaultKind) (v p : Word) (s : State) : (takeFault k v p s).skip = s.skip := rfl
@[simp] theorem takeFault_status (k : FaultKind) (v p : Word) (s : State) :
    (takeFault k v p s).status = .faulted { kind := k, value := v, pc := p } := rfl

/-! ## Registers -/

/-- A register reads what was last written to it, and no write reaches another register (10_state.md R13). -/
theorem RegFile.get_set (f : RegFile) (r q : Reg) (v : Word) : (f.set r v).get q = if q = r then v else f.get q := by
  cases r <;> cases q <;> rfl

@[simp] theorem RegFile.get_set_self (f : RegFile) (r : Reg) (v : Word) : (f.set r v).get r = v := by
  simp [RegFile.get_set]

theorem RegFile.get_set_ne (f : RegFile) (r q : Reg) (v : Word) (h : q ≠ r) : (f.set r v).get q = f.get q := by
  simp [RegFile.get_set, h]

@[simp] theorem RegFile.set_set (f : RegFile) (r : Reg) (v w : Word) : (f.set r v).set r w = f.set r w := by
  cases r <;> rfl

@[simp] theorem RegFile.set_get (f : RegFile) (r : Reg) : f.set r (f.get r) = f := by cases r <;> rfl

theorem RegFile.set_comm (f : RegFile) (r q : Reg) (v w : Word) (h : r ≠ q) :
    (f.set r v).set q w = (f.set q w).set r v := by
  cases r <;> cases q <;> first | rfl | exact absurd rfl h

theorem RegFile.ext_get {f g : RegFile} (h : ∀ r, f.get r = g.get r) : f = g := by
  cases f; cases g
  simp only [RegFile.mk.injEq]
  exact ⟨h .a, h .b, h .c, h .x, h .y, h .z, h .i, h .j, h .sp, h .pc, h .o⟩

theorem State.getReg_setReg (s : State) (r q : Reg) (v : Word) :
    (s.setReg r v).getReg q = if q = r then v else s.getReg q := RegFile.get_set _ _ _ _

@[simp] theorem State.getReg_setReg_self (s : State) (r : Reg) (v : Word) : (s.setReg r v).getReg r = v := by
  simp [State.getReg_setReg]

theorem State.getReg_setReg_ne (s : State) (r q : Reg) (v : Word) (h : q ≠ r) :
    (s.setReg r v).getReg q = s.getReg q := by
  simp [State.getReg_setReg, h]

@[simp] theorem State.getReg_writeWord (s : State) (k v : Word) (q : Reg) : (s.writeWord k v).getReg q = s.getReg q := rfl
@[simp] theorem State.getReg_tick (s : State) (n : Nat) (q : Reg) : (s.tick n).getReg q = s.getReg q := rfl
@[simp] theorem State.getReg_setSkip (s : State) (b : Bool) (q : Reg) : (s.setSkip b).getReg q = s.getReg q := rfl
@[simp] theorem getReg_takeFault (k : FaultKind) (v p : Word) (s : State) (q : Reg) :
    (takeFault k v p s).getReg q = s.getReg q := rfl

@[simp] theorem State.readWord_setReg (s : State) (r : Reg) (v k : Word) : (s.setReg r v).readWord k = s.readWord k := rfl
@[simp] theorem State.readWord_tick (s : State) (n : Nat) (k : Word) : (s.tick n).readWord k = s.readWord k := rfl
@[simp] theorem State.readWord_setSkip (s : State) (b : Bool) (k : Word) : (s.setSkip b).readWord k = s.readWord k := rfl

@[simp] theorem GReg.toReg_inj (g h : GReg) : g.toReg = h.toReg ↔ g = h := by cases g <;> cases h <;> decide
@[simp] theorem GReg.toReg_ne_sp (g : GReg) : g.toReg ≠ .sp := by cases g <;> decide
@[simp] theorem GReg.toReg_ne_pc (g : GReg) : g.toReg ≠ .pc := by cases g <;> decide
@[simp] theorem GReg.toReg_ne_o (g : GReg) : g.toReg ≠ .o := by cases g <;> decide

end Sys2Proof.Machine
end

