-- ==== Sys2Proof/Laws/Memory.lean ====
section
/-! SUPPORT. The memory laws: read after write with no premise on the memory, every memory operation keeps the canonical
form, and what an unlisted address reads as. -/

namespace Sys2Proof.Machine

theorem cellsRead_erase (c : List (Nat × Word)) (k j : Nat) :
    cellsRead (cellsErase c k) j = if j = k then Memory.unlisted else cellsRead c j := by
  induction c with
  | nil => simp [cellsErase, cellsRead]
  | cons p rest ih =>
    obtain ⟨a, v⟩ := p
    simp only [cellsErase, cellsRead]
    split
    · next h => subst h; rw [ih]; by_cases hj : j = a <;> simp [hj, eq_comm]
    · next h =>
      simp only [cellsRead, ih]
      by_cases hj : a = j
      · subst hj; simp [h]
      · simp [hj]

theorem cellsRead_insert (c : List (Nat × Word)) (k j : Nat) (v : Word) (h : cellsRead c k = Memory.unlisted)
    (hk : ∀ p ∈ c, p.1 ≠ k) : cellsRead (cellsInsert c k v) j = if j = k then v else cellsRead c j := by
  induction c with
  | nil => simp [cellsInsert, cellsRead, eq_comm]
  | cons p rest ih =>
    obtain ⟨a, w⟩ := p
    have ha : a ≠ k := hk (a, w) (by simp)
    simp only [cellsInsert]
    split
    · simp [cellsRead, eq_comm]
    · have hr : cellsRead rest k = Memory.unlisted := by simpa [cellsRead, ha] using h
      simp only [cellsRead, ih hr (fun p hp => hk p (by simp [hp]))]
      by_cases hj : a = j
      · subst hj; simp [ha]
      · simp [hj]

theorem cellsErase_keys (c : List (Nat × Word)) (k : Nat) : ∀ p ∈ cellsErase c k, p.1 ≠ k := by
  induction c with
  | nil => simp [cellsErase]
  | cons q rest ih =>
    obtain ⟨a, v⟩ := q
    simp only [cellsErase]
    split
    · exact ih
    · next h =>
      intro p hp
      rcases List.mem_cons.mp hp with rfl | hp
      · exact h
      · exact ih p hp

/-- Read after write, for every list of cells. -/
theorem cellsRead_write (c : List (Nat × Word)) (k j : Nat) (v : Word) :
    cellsRead (cellsWrite c k v) j = if j = k then v else cellsRead c j := by
  unfold cellsWrite
  split
  · next h => rw [cellsRead_erase, h]
  · rw [cellsRead_insert _ _ _ _ (by simp [cellsRead_erase]) (cellsErase_keys c k), cellsRead_erase]
    by_cases hj : j = k <;> simp [hj]

/-- Read after write at any natural offsets (20_memory.md R26, R27). -/
theorem Memory.read_write (m : Memory) (n k : Nat) (v : Word) :
    (m.write n v).read k = if k % Config.memWords = n % Config.memWords then v else m.read k :=
  cellsRead_write _ _ _ _

theorem Memory.read_mod (m : Memory) (n : Nat) : m.read (n % Config.memWords) = m.read n := by
  simp [Memory.read]

theorem Memory.write_mod (m : Memory) (n : Nat) (v : Word) : m.write (n % Config.memWords) v = m.write n v := by
  simp [Memory.write]

theorem word_mod_memWords (k : Word) : k.toNat % Config.memWords = k.toNat := Nat.mod_eq_of_lt k.isLt

/-- Read after write at Word addresses. -/
theorem State.readWord_writeWord (s : State) (k j v : Word) :
    (s.writeWord k v).readWord j = if j = k then v else s.readWord j := by
  simp only [State.readWord, State.writeWord, Memory.read_write, word_mod_memWords, BitVec.toNat_inj]

@[simp] theorem State.readWord_writeWord_self (s : State) (k v : Word) : (s.writeWord k v).readWord k = v := by
  simp [State.readWord_writeWord]

theorem State.readWord_writeWord_ne (s : State) (k j v : Word) (h : j ≠ k) :
    (s.writeWord k v).readWord j = s.readWord j := by
  simp [State.readWord_writeWord, h]

/-! ## The canonical form -/

theorem cellsWf_mono {lo lo' : Nat} (h : lo' ≤ lo) : ∀ {c : List (Nat × Word)}, cellsWf lo c = true → cellsWf lo' c = true
  | [], _ => rfl
  | (a, v) :: rest, hc => by
    simp only [cellsWf, Bool.and_eq_true, decide_eq_true_eq] at hc ⊢
    exact ⟨⟨⟨by omega, hc.1.1.2⟩, hc.1.2⟩, hc.2⟩

theorem cellsWf_erase (k : Nat) : ∀ {lo : Nat} {c : List (Nat × Word)}, cellsWf lo c = true → cellsWf lo (cellsErase c k) = true
  | _, [], _ => rfl
  | lo, (a, v) :: rest, hc => by
    simp only [cellsWf, Bool.and_eq_true, decide_eq_true_eq] at hc
    simp only [cellsErase]
    split
    · exact cellsWf_mono (by omega) (cellsWf_erase k hc.2)
    · simp only [cellsWf, Bool.and_eq_true, decide_eq_true_eq]
      exact ⟨hc.1, cellsWf_erase k hc.2⟩

theorem cellsWf_insert {k : Nat} {v : Word} (hk : k < Config.memWords) (hv : v ≠ Memory.unlisted) :
    ∀ {lo : Nat} {c : List (Nat × Word)}, lo ≤ k → cellsWf lo c = true → (∀ p ∈ c, p.1 ≠ k) →
      cellsWf lo (cellsInsert c k v) = true
  | lo, [], hlo, _, _ => by simp [cellsInsert, cellsWf, hlo, hk, hv]
  | lo, (a, w) :: rest, hlo, hc, hne => by
    have ha : a ≠ k := hne (a, w) (by simp)
    simp only [cellsWf, Bool.and_eq_true, decide_eq_true_eq] at hc
    simp only [cellsInsert]
    split
    · next h =>
      simp only [cellsWf, Bool.and_eq_true, decide_eq_true_eq]
      exact ⟨⟨⟨hlo, hk⟩, hv⟩, ⟨⟨by omega, hc.1.1.2⟩, hc.1.2⟩, hc.2⟩
    · simp only [cellsWf, Bool.and_eq_true, decide_eq_true_eq]
      exact ⟨hc.1, cellsWf_insert hk hv (by omega) hc.2 (fun p hp => hne p (by simp [hp]))⟩

/-- A write keeps the canonical form. -/
theorem Memory.write_wf (m : Memory) (n : Nat) (v : Word) (h : m.wf = true) : (m.write n v).wf = true := by
  simp only [Memory.wf, Memory.write, cellsWrite] at *
  split
  · exact cellsWf_erase _ h
  · next hv =>
    exact cellsWf_insert (Nat.mod_lt _ (by decide)) hv (Nat.zero_le _) (cellsWf_erase _ h) (cellsErase_keys _ _)

/-- Storing a list of words keeps the canonical form. -/
theorem Memory.storeFrom_wf (ws : List Word) : ∀ (m : Memory) (n : Nat), m.wf = true → (m.storeFrom n ws).wf = true := by
  induction ws with
  | nil => exact fun _ _ h => h
  | cons w ws ih => exact fun m n h => ih _ _ (m.write_wf n w h)

/-- The empty memory is in canonical form: it is the reset memory. -/
theorem Memory.empty_wf : ({ cells := [] } : Memory).wf = true := rfl

end Sys2Proof.Machine
end

