-- ==== Sys2Proof/Laws/Ops.lean ====
section
/-! SUPPORT. What each shared operation can do, said once: the stack, the fetch, the reads of the operands, the write of a
handle, and the four shapes of the instruction rules. -/

namespace Sys2Proof.Machine

/-- `State.push` said by fields. -/
theorem State.push_eq (s : State) (v : Word) :
    s.push v = (s.setReg .sp (s.getReg .sp - 1)).writeWord (s.getReg .sp - 1) v := by
  simp [State.push, State.pushAddress]

@[simp] theorem State.pop_value (s : State) : s.pop.1 = s.readWord (s.getReg .sp) := rfl
@[simp] theorem State.pop_state (s : State) : s.pop.2 = s.setReg .sp (s.getReg .sp + 1) := rfl
@[simp] theorem State.fetch_word (s : State) : s.fetch.1 = s.readWord (s.getReg .pc) := rfl
@[simp] theorem State.fetch_state (s : State) : s.fetch.2 = s.setReg .pc (s.getReg .pc + 1) := rfl

/-- What a read of a freshly resolved handle answers (40_execution.md R58 to R63). -/
theorem get_resolve_value (a : Operand) (s : State) : ((resolve a s).get s).value = operandValue a s := by
  cases a <;> rfl

theorem get_resolve_state (a : Operand) (s u : State) : ((resolve a s).get u).state = afterRead a u := by
  cases a <;> rfl

/-- A handle resolved in one state reads the same in a state with the same registers, whatever its memory. -/
theorem resolve_congr (a : Operand) {s u : State} (h : ∀ g : GReg, s.getReg g.toReg = u.getReg g.toReg) :
    resolve a s = resolve a u := by
  cases a <;> simp [resolve, h]

theorem get_resolve_value_of (a : Operand) (s u : State) (h : ∀ g : GReg, s.getReg g.toReg = u.getReg g.toReg) :
    ((resolve a s).get u).value = operandValue a u := by
  rw [resolve_congr a h, get_resolve_value]

/-- A write through a handle, its cache filled or not, is the write of the operand (R58 to R63). -/
theorem set_get_handle (a : Operand) (v : Word) (s0 u s : State) :
    (((resolve a s0).get u).handle).set v s = storeOperand a v s0 s := by
  cases a <;> simp [resolve, Handle.get, Handle.set, storeOperand, State.push_eq]

theorem set_resolve (a : Operand) (v : Word) (s0 s : State) : (resolve a s0).set v s = storeOperand a v s0 s := by
  cases a <;> simp [resolve, Handle.set, storeOperand, State.push_eq]

theorem afterRead_greg (a : Operand) (s : State) (g : GReg) : (afterRead a s).getReg g.toReg = s.getReg g.toReg := by
  cases a <;> simp [afterRead, isStackSlot, State.getReg_setReg]

/-- What reading both operands answers (R64). -/
theorem readBoth_spec (a b : Operand) (s : State) :
    (readBoth a b s).va = operandValue a s ∧ (readBoth a b s).vb = operandValue b (afterRead a s) ∧
      (readBoth a b s).state = afterRead b (afterRead a s) := by
  refine ⟨get_resolve_value a s, ?_, ?_⟩
  · simp only [readBoth, get_resolve_state]
    exact get_resolve_value_of b s _ (fun g => (afterRead_greg a s g).symm)
  · simp only [readBoth, get_resolve_state]

/-- A write through the handle of a, after both reads. -/
theorem readBoth_set (a b : Operand) (v : Word) (s u : State) :
    (readBoth a b s).ha.set v u = storeOperand a v s u := set_get_handle a v s s u

@[simp] theorem operandValue_tick (a : Operand) (s : State) (n : Nat) : operandValue a (s.tick n) = operandValue a s := by
  cases a <;> rfl

@[simp] theorem afterRead_tick (a : Operand) (s : State) (n : Nat) : afterRead a (s.tick n) = (afterRead a s).tick n := by
  cases a <;> rfl

theorem storeOperand_tick (a : Operand) (v : Word) (s0 s : State) (n m : Nat) :
    storeOperand a v (s0.tick m) (s.tick n) = (storeOperand a v s0 s).tick n := by
  cases a <;> rfl

theorem setReg_tick (s : State) (r : Reg) (v : Word) (n : Nat) : (s.tick n).setReg r v = (s.setReg r v).tick n := rfl

/-- AND, BOR, XOR: everything `setOnly` can do. -/
theorem setOnly_spec (f : Word → Word → Word) (a b : Operand) (s : State) (n : Nat) :
    setOnly f a b (s.tick n) =
      (storeOperand a (f (operandValue a s) (operandValue b (afterRead a s))) s (afterRead b (afterRead a s))).tick n := by
  obtain ⟨hva, hvb, hst⟩ := readBoth_spec a b (s.tick n)
  simp only [setOnly, readBoth_set, hva, hvb, hst, operandValue_tick, afterRead_tick, storeOperand_tick]

/-- ADD, SUB, MUL, DIV, SHL: everything `setThenO` can do. -/
theorem setThenO_spec (f g : Word → Word → Word) (a b : Operand) (s : State) (n : Nat) :
    setThenO f g a b (s.tick n) =
      ((storeOperand a (f (operandValue a s) (operandValue b (afterRead a s))) s (afterRead b (afterRead a s))).setReg .o
        (g (operandValue a s) (operandValue b (afterRead a s)))).tick n := by
  obtain ⟨hva, hvb, hst⟩ := readBoth_spec a b (s.tick n)
  simp only [setThenO, readBoth_set, hva, hvb, hst, operandValue_tick, afterRead_tick, storeOperand_tick, setReg_tick]

/-- SHR: everything `oThenSet` can do. -/
theorem oThenSet_spec (f g : Word → Word → Word) (a b : Operand) (s : State) (n : Nat) :
    oThenSet f g a b (s.tick n) =
      (storeOperand a (f (operandValue a s) (operandValue b (afterRead a s))) s
        ((afterRead b (afterRead a s)).setReg .o (g (operandValue a s) (operandValue b (afterRead a s))))).tick n := by
  obtain ⟨hva, hvb, hst⟩ := readBoth_spec a b (s.tick n)
  simp only [oThenSet, readBoth_set, hva, hvb, hst, operandValue_tick, afterRead_tick, storeOperand_tick, setReg_tick]

/-- IFE, IFN, IFG, IFB: everything `skipIf` can do. -/
theorem skipIf_spec (c : Word → Word → Bool) (a b : Operand) (s : State) (n : Nat) :
    skipIf c a b (s.tick n) =
      if c (operandValue a s) (operandValue b (afterRead a s)) then
        ((afterRead b (afterRead a s)).tick n).setSkip true else (afterRead b (afterRead a s)).tick n := by
  obtain ⟨hva, hvb, hst⟩ := readBoth_spec a b (s.tick n)
  simp only [skipIf, hva, hvb, hst, operandValue_tick, afterRead_tick]

/-! ## What the shared writes and reads leave alone -/

theorem afterRead_getReg (a : Operand) (s : State) (r : Reg) :
    (afterRead a s).getReg r = if isStackSlot a = true ∧ r = .sp then s.getReg .sp + 1 else s.getReg r := by
  unfold afterRead
  cases isStackSlot a <;> simp [State.getReg_setReg]

theorem afterRead_getReg_ne (a : Operand) (s : State) (r : Reg) (h : ¬(r = .sp ∧ isStackSlot a = true)) :
    (afterRead a s).getReg r = s.getReg r := by
  rw [afterRead_getReg, if_neg (fun e => h ⟨e.2, e.1⟩)]

/-- Reading both operands changes no register but SP, and that only where one is a stack slot. -/
theorem afterRead_both_getReg (a b : Operand) (s : State) (r : Reg)
    (h : ¬(r = .sp ∧ (isStackSlot a || isStackSlot b) = true)) : (afterRead b (afterRead a s)).getReg r = s.getReg r := by
  rw [afterRead_getReg_ne _ _ _ (fun e => h ⟨e.1, by simp [e.2]⟩),
    afterRead_getReg_ne _ _ _ (fun e => h ⟨e.1, by simp [e.2]⟩)]

@[simp] theorem afterRead_mem (a : Operand) (s : State) : (afterRead a s).mem = s.mem := by
  unfold afterRead; split <;> rfl
@[simp] theorem afterRead_readWord (a : Operand) (s : State) (k : Word) : (afterRead a s).readWord k = s.readWord k := by
  unfold afterRead; split <;> rfl
@[simp] theorem afterRead_cycles (a : Operand) (s : State) : (afterRead a s).cycles = s.cycles := by
  unfold afterRead; split <;> rfl
@[simp] theorem afterRead_skip (a : Operand) (s : State) : (afterRead a s).skip = s.skip := by
  unfold afterRead; split <;> rfl
@[simp] theorem afterRead_status (a : Operand) (s : State) : (afterRead a s).status = s.status := by
  unfold afterRead; split <;> rfl

@[simp] theorem storeOperand_cycles (a : Operand) (v : Word) (s0 s : State) : (storeOperand a v s0 s).cycles = s.cycles := by
  cases a <;> rfl
@[simp] theorem storeOperand_skip (a : Operand) (v : Word) (s0 s : State) : (storeOperand a v s0 s).skip = s.skip := by
  cases a <;> rfl
@[simp] theorem storeOperand_status (a : Operand) (v : Word) (s0 s : State) : (storeOperand a v s0 s).status = s.status := by
  cases a <;> rfl

/-- A write to an operand changes its register, or SP where it is a stack slot, and no other. -/
theorem storeOperand_getReg (a : Operand) (v : Word) (s0 s : State) (r : Reg) (ha : a ≠ .reg r)
    (hsp : ¬(r = .sp ∧ isStackSlot a = true)) : (storeOperand a v s0 s).getReg r = s.getReg r := by
  cases a with
  | reg q => exact State.getReg_setReg_ne s q r v (fun h => ha (by rw [h]))
  | pop => exact State.getReg_setReg_ne s .sp r _ (fun h => hsp ⟨h, rfl⟩)
  | push => exact State.getReg_setReg_ne s .sp r _ (fun h => hsp ⟨h, rfl⟩)
  | ind g => rfl
  | idx g n => rfl
  | abs n => rfl
  | peek => rfl
  | long n => rfl
  | short n => rfl

/-- A write to an operand changes only the word at its store address. -/
theorem storeOperand_readWord (a : Operand) (v : Word) (s0 s : State) (k : Word)
    (h : (resolve a s0).storeAddress s ≠ some k) : (storeOperand a v s0 s).readWord k = s.readWord k := by
  have key : ∀ (u : State) (j : Word), some j ≠ some k → (u.writeWord j v).readWord k = u.readWord k :=
    fun u j hj => State.readWord_writeWord_ne u j k v (fun e => hj (by rw [e]))
  cases a with
  | reg q => rfl
  | pop => exact key _ _ h
  | push => exact key _ _ h
  | ind g => exact key _ _ h
  | idx g n => exact key _ _ h
  | abs n => exact key _ _ h
  | peek => rfl
  | long n => rfl
  | short n => rfl

/-- A write to an operand keeps the canonical form of memory. -/
theorem storeOperand_wf (a : Operand) (v : Word) (s0 s : State) (h : s.mem.wf = true) :
    (storeOperand a v s0 s).mem.wf = true := by
  cases a <;> first | exact h | exact Memory.write_wf _ _ _ h

end Sys2Proof.Machine
end

