-- ==== Sys2Proof/Laws/PerInstr.lean ====
section
/-! SUPPORT. Statements per instruction, one lemma per constructor: the length of an encoded instruction (30_encoding.md
R44). -/

namespace Sys2Proof.Laws

theorem extWords_length_le_one (a : Operand) : (extWords a).length ≤ 1 := by cases a <;> simp [extWords]

/-- The encoder writes one instruction word and the extension words, at most three words in all (R44). -/
def EncodedLength.Statement (i : Instr) : Prop :=
  (encode i).length = 1 + i.extCount ∧ (encode i).length ≤ Config.maxInstructionWords

theorem encodeBasic_length (op : BitVec 4) (a b : Operand) :
    (encodeBasic op a b).length = 1 + ((extWords a).length + (extWords b).length) ∧
      (encodeBasic op a b).length ≤ Config.maxInstructionWords := by
  have ha := extWords_length_le_one a
  have hb := extWords_length_le_one b
  simp only [encodeBasic, List.length_cons, List.length_append, Config.maxInstructionWords]
  omega

theorem EncodedLength.set (a b : Operand) : EncodedLength.Statement (.set a b) := encodeBasic_length _ a b
theorem EncodedLength.add (a b : Operand) : EncodedLength.Statement (.add a b) := encodeBasic_length _ a b
theorem EncodedLength.sub (a b : Operand) : EncodedLength.Statement (.sub a b) := encodeBasic_length _ a b
theorem EncodedLength.mul (a b : Operand) : EncodedLength.Statement (.mul a b) := encodeBasic_length _ a b
theorem EncodedLength.div (a b : Operand) : EncodedLength.Statement (.div a b) := encodeBasic_length _ a b
theorem EncodedLength.mod (a b : Operand) : EncodedLength.Statement (.mod a b) := encodeBasic_length _ a b
theorem EncodedLength.shl (a b : Operand) : EncodedLength.Statement (.shl a b) := encodeBasic_length _ a b
theorem EncodedLength.shr (a b : Operand) : EncodedLength.Statement (.shr a b) := encodeBasic_length _ a b
theorem EncodedLength.and (a b : Operand) : EncodedLength.Statement (.and a b) := encodeBasic_length _ a b
theorem EncodedLength.bor (a b : Operand) : EncodedLength.Statement (.bor a b) := encodeBasic_length _ a b
theorem EncodedLength.xor (a b : Operand) : EncodedLength.Statement (.xor a b) := encodeBasic_length _ a b
theorem EncodedLength.ife (a b : Operand) : EncodedLength.Statement (.ife a b) := encodeBasic_length _ a b
theorem EncodedLength.ifn (a b : Operand) : EncodedLength.Statement (.ifn a b) := encodeBasic_length _ a b
theorem EncodedLength.ifg (a b : Operand) : EncodedLength.Statement (.ifg a b) := encodeBasic_length _ a b
theorem EncodedLength.ifb (a b : Operand) : EncodedLength.Statement (.ifb a b) := encodeBasic_length _ a b
theorem EncodedLength.jsr (a : Operand) : EncodedLength.Statement (.jsr a) := by
  have := extWords_length_le_one a
  simp only [EncodedLength.Statement, encode, Instr.extCount, List.length_cons, Config.maxInstructionWords]
  omega

end Sys2Proof.Laws
end

