-- ==== Sys2Proof/Laws/Step.lean ====
section
/-! SUPPORT. The fetch said through the decoder, what `exec` can do said once for all instructions, and the inversion of a
step. -/

namespace Sys2Proof.Machine

/-! ## The fetch -/

@[simp] theorem advanced_mem (s : State) (n : Nat) : (s.advanced n).mem = s.mem := rfl
@[simp] theorem advanced_cycles (s : State) (n : Nat) : (s.advanced n).cycles = s.cycles + n := rfl
@[simp] theorem advanced_skip (s : State) (n : Nat) : (s.advanced n).skip = s.skip := rfl
@[simp] theorem advanced_status (s : State) (n : Nat) : (s.advanced n).status = s.status := rfl
@[simp] theorem advanced_readWord (s : State) (n : Nat) (k : Word) : (s.advanced n).readWord k = s.readWord k := rfl

theorem advanced_pc (s : State) (n : Nat) : (s.advanced n).getReg .pc = s.getReg .pc + BitVec.ofNat 16 (n + 1) := by
  simp [State.advanced, State.getReg]

theorem advanced_getReg (s : State) (n : Nat) (r : Reg) (h : r ≠ .pc) : (s.advanced n).getReg r = s.getReg r :=
  RegFile.get_set_ne _ _ _ _ h

theorem fetch_state_advanced (s : State) : s.fetch.2 = s.advanced 0 := rfl

theorem advanced_fetch_tick (s : State) (n : Nat) : (s.advanced n).fetch.2.tick 1 = s.advanced (n + 1) := by
  simp only [State.fetch_state, State.setReg, State.tick, State.advanced, State.getReg, RegFile.get_set_self, RegFile.set_set]
  rw [BitVec.add_assoc, show BitVec.ofNat 16 (n + 1) + 1 = BitVec.ofNat 16 (n + 1 + 1) from (BitVec.ofNat_add ..).symm,
    Nat.add_assoc s.cycles]

/-- Fetching an operand after `n` extension words: the word it takes is the one after them (R45, R57). -/
theorem fetchOperand_advanced (c : BitVec 6) (s : State) (n : Nat) :
    fetchOperand c (s.advanced n) =
      (operandOf c (if takesWord c then s.readWord (s.getReg .pc + BitVec.ofNat 16 (n + 1)) else 0),
        s.advanced (n + if takesWord c then 1 else 0)) := by
  unfold fetchOperand
  split
  · rw [advanced_fetch_tick, State.fetch_word, advanced_readWord, advanced_pc]
  · rfl

/-- Taking an operand from a list whose first word is there. -/
theorem takeOperand_cons (c : BitVec 6) (n : Word) (ws : List Word) :
    takeOperand c (n :: ws) =
      some (operandOf c (if takesWord c then n else 0), if takesWord c then ws else n :: ws) := by
  cases h : takesWord c <;> simp [takeOperand, h]

theorem extWords_operandOf (c : BitVec 6) (n : Word) :
    (extWords (operandOf c n)).length = if takesWord c then 1 else 0 := by
  rw [(operandOf_spec c n).2.2]
  split <;> rfl

theorem extCount_instr (op : BasicOp) (a b : Operand) :
    (op.instr a b).extCount = (extWords a).length + (extWords b).length := by cases op <;> rfl

/-- The fetch and the decoder read the same instruction: the window decodes, and the fetch answers what it decodes to, with
PC past its words and one tick per extension word (R44, R45, R52). -/
theorem fetchInstr_window (s : State) :
    (∃ i rest, decode s.window = .ok i rest ∧ fetchInstr s = (.instr i, s.advanced i.extCount)) ∨
    (∃ ext a rest, decode s.window = .unassigned ext a rest ∧
      fetchInstr s = (.unassigned ext a, s.advanced (extWords a).length)) := by
  unfold fetchInstr
  simp only [State.window, decode, State.fetch_word, fetch_state_advanced]
  cases decodeHead (s.readWord (s.getReg .pc)) with
  | basic op ca cb =>
    refine .inl ⟨op.instr
      (operandOf ca (if takesWord ca then s.readWord (s.getReg .pc + 1) else 0))
      (operandOf cb (if takesWord cb then (if takesWord ca then s.readWord (s.getReg .pc + 2)
        else s.readWord (s.getReg .pc + 1)) else 0)), ?_⟩
    simp only [takeOperand_cons, fetchOperand_advanced, extCount_instr, extWords_operandOf, Nat.zero_add]
    cases takesWord ca <;> cases hb : takesWord cb <;>
      simp only [if_true, if_false, Bool.false_eq_true, takeOperand_cons, hb] <;>
      first | exact ⟨_, rfl, rfl⟩ | exact ⟨_, rfl, trivial⟩
  | jsr c =>
    refine .inl ⟨.jsr (operandOf c (if takesWord c then s.readWord (s.getReg .pc + 1) else 0)), ?_⟩
    simp only [takeOperand_cons, fetchOperand_advanced, Instr.extCount, extWords_operandOf, Nat.zero_add]
    exact ⟨_, rfl, rfl⟩
  | unassigned ext c =>
    refine .inr ⟨ext, operandOf c (if takesWord c then s.readWord (s.getReg .pc + 1) else 0), ?_⟩
    simp only [takeOperand_cons, fetchOperand_advanced, extWords_operandOf, Nat.zero_add]
    exact ⟨_, rfl, rfl⟩

theorem fetchInstr_of_decode {s : State} {i : Instr} {rest : List Word} (h : decode s.window = .ok i rest) :
    fetchInstr s = (.instr i, s.advanced i.extCount) := by
  rcases fetchInstr_window s with ⟨j, r, hd, hf⟩ | ⟨e, a, r, hd, _⟩
  · rw [h] at hd
    cases hd
    exact hf
  · rw [h] at hd
    cases hd

theorem fetchInstr_of_unassigned {s : State} {ext : BitVec 6} {a : Operand} {rest : List Word}
    (h : decode s.window = .unassigned ext a rest) :
    fetchInstr s = (.unassigned ext a, s.advanced (extWords a).length) := by
  rcases fetchInstr_window s with ⟨j, r, hd, _⟩ | ⟨e, b, r, hd, hf⟩
  · rw [h] at hd
    cases hd
  · rw [h] at hd
    cases hd
    exact hf

/-! ## What an instruction can do -/

/-- MOD: everything it can do. -/
theorem execMod_spec (a b : Operand) (s : State) :
    execMod a b s = .next (
      let stored := storeOperand a (modResult (operandValue a s) (operandValue b (afterRead a s))) s
        (afterRead b (afterRead a s))
      (if operandValue b (afterRead a s) = 0 then stored.setReg .o 0 else stored).tick 3) := by
  obtain ⟨hva, hvb, hst⟩ := readBoth_spec a b (s.tick 3)
  simp only [execMod, readBoth_set, cost, hva, hvb, hst, operandValue_tick, afterRead_tick, storeOperand_tick]
  split <;> rfl

/-- JSR on the state after its push. -/
theorem execJsr_pushed (a : Operand) (s : State) :
    execJsr a s = .next (((afterRead a (s.push (s.getReg .pc))).setReg .pc (operandValue a (s.push (s.getReg .pc)))).tick 2) := by
  have hg : ∀ g : GReg, (s.tick 2).getReg g.toReg = ((s.push (s.getReg .pc)).tick 2).getReg g.toReg := fun g => by
    simp [State.push_eq, State.getReg_setReg]
  simp only [execJsr, cost]
  rw [show (s.tick 2).push ((s.tick 2).getReg .pc) = (s.push (s.getReg .pc)).tick 2 from rfl,
    get_resolve_value_of _ _ _ hg, get_resolve_state, operandValue_tick, afterRead_tick]
  rfl

/-- What every instruction does to what is no operand of it: it answers a next state, charges its cost, keeps the status and
the canonical form of memory, and writes the skip flag only if it is a conditional, and then only to set it. -/
def ChargesAndKeeps (i : Instr) (s t : State) : Prop :=
  t.cycles = s.cycles + cost i ∧ t.status = s.status ∧ (s.mem.wf = true → t.mem.wf = true) ∧
    (isConditional i = false → t.skip = s.skip) ∧ (s.skip = true → t.skip = true)

theorem storeOperand_after_wf (a b : Operand) (v : Word) (s s0 : State) (h : s.mem.wf = true) :
    (storeOperand a v s0 (afterRead b (afterRead a s))).mem.wf = true := storeOperand_wf a v s0 _ (by simpa using h)

theorem setOnly_keeps (i : Instr) (f : Word → Word → Word) (a b : Operand) (s : State) :
    ChargesAndKeeps i s (setOnly f a b (s.tick (cost i))) := by
  rw [setOnly_spec]
  exact ⟨by simp, by simp, storeOperand_after_wf a b _ s s, fun _ => by simp, fun h => by simpa using h⟩

theorem setThenO_keeps (i : Instr) (f g : Word → Word → Word) (a b : Operand) (s : State) :
    ChargesAndKeeps i s (setThenO f g a b (s.tick (cost i))) := by
  rw [setThenO_spec]
  exact ⟨by simp, by simp, storeOperand_after_wf a b _ s s, fun _ => by simp, fun h => by simpa using h⟩

theorem oThenSet_keeps (i : Instr) (f g : Word → Word → Word) (a b : Operand) (s : State) :
    ChargesAndKeeps i s (oThenSet f g a b (s.tick (cost i))) := by
  rw [oThenSet_spec]
  exact ⟨by simp, by simp, fun h => storeOperand_wf a _ s _ (by simpa using h), fun _ => by simp, fun h => by simpa using h⟩

theorem skipIf_keeps (i : Instr) (c : Word → Word → Bool) (a b : Operand) (s : State) (hi : isConditional i = true) :
    ChargesAndKeeps i s (skipIf c a b (s.tick (cost i))) := by
  rw [skipIf_spec]
  split
  · exact ⟨by simp, by simp, by simp, fun h => by simp [hi] at h, fun _ => by simp⟩
  · exact ⟨by simp, by simp, by simp, fun h => by simp [hi] at h, fun h => by simpa using h⟩

theorem exec_spec (i : Instr) (s : State) : ∃ t, exec i s = .next t ∧ ChargesAndKeeps i s t := by
  cases i with
  | set a b =>
    refine ⟨_, rfl, ?_⟩
    rw [get_resolve_value, get_resolve_state, set_resolve]
    exact ⟨by simp, by simp, fun h => storeOperand_wf a _ _ _ (by simpa using h), fun _ => by simp, fun h => by simpa using h⟩
  | add a b => exact ⟨_, rfl, setThenO_keeps _ _ _ a b s⟩
  | sub a b => exact ⟨_, rfl, setThenO_keeps _ _ _ a b s⟩
  | mul a b => exact ⟨_, rfl, setThenO_keeps _ _ _ a b s⟩
  | div a b => exact ⟨_, rfl, setThenO_keeps _ _ _ a b s⟩
  | mod a b =>
    refine ⟨_, execMod_spec a b s, ?_⟩
    simp only []
    split <;>
      exact ⟨by simp [cost], by simp, storeOperand_after_wf a b _ s s, fun _ => by simp, fun h => by simpa using h⟩
  | shl a b => exact ⟨_, rfl, setThenO_keeps _ _ _ a b s⟩
  | shr a b => exact ⟨_, rfl, oThenSet_keeps _ _ _ a b s⟩
  | and a b => exact ⟨_, rfl, setOnly_keeps _ _ a b s⟩
  | bor a b => exact ⟨_, rfl, setOnly_keeps _ _ a b s⟩
  | xor a b => exact ⟨_, rfl, setOnly_keeps _ _ a b s⟩
  | ife a b => exact ⟨_, rfl, skipIf_keeps _ _ a b s rfl⟩
  | ifn a b => exact ⟨_, rfl, skipIf_keeps _ _ a b s rfl⟩
  | ifg a b => exact ⟨_, rfl, skipIf_keeps _ _ a b s rfl⟩
  | ifb a b => exact ⟨_, rfl, skipIf_keeps _ _ a b s rfl⟩
  | jsr a =>
    refine ⟨_, execJsr_pushed a s, ?_⟩
    exact ⟨by simp [cost, State.push_eq], by simp [State.push_eq],
      fun h => by simpa [State.push_eq] using Memory.write_wf _ _ _ h, fun _ => by simp [State.push_eq],
      fun h => by simpa [State.push_eq] using h⟩

/-! ## The step, inverted -/

/-- Everything a step can do: nothing in Faulted; a skip; the decoded instruction; or the fault of an unassigned key. -/
theorem step_cases (s : State) :
    (s.status ≠ .idle ∧ step s = .next s) ∨
    (s.status = .idle ∧ s.skip = true ∧
      ((∃ i rest, decode s.window = .ok i rest ∧ step s = .next (skipInstr (s.advanced i.extCount))) ∨
       (∃ ext a rest, decode s.window = .unassigned ext a rest ∧
        step s = .next (skipInstr (s.advanced (extWords a).length))))) ∨
    (s.status = .idle ∧ s.skip = false ∧ ∃ i rest, decode s.window = .ok i rest ∧
      step s = exec i (s.advanced i.extCount)) ∨
    (s.status = .idle ∧ s.skip = false ∧ ∃ ext a rest, decode s.window = .unassigned ext a rest ∧
      step s = .next (takeFault .unknownOpcode (extKey ext) (s.getReg .pc) (s.advanced (extWords a).length))) := by
  cases hs : s.status with
  | faulted r => exact .inl ⟨by simp, by simp [step, hs]⟩
  | idle =>
    refine .inr ?_
    rcases fetchInstr_window s with ⟨i, rest, hd, hf⟩ | ⟨ext, a, rest, hd, hf⟩ <;> cases hk : s.skip
    · exact .inr (.inl ⟨rfl, rfl, i, rest, hd, by simp [step, hs, hf, hk]⟩)
    · exact .inl ⟨rfl, rfl, .inl ⟨i, rest, hd, by simp [step, hs, hf, hk]⟩⟩
    · exact .inr (.inr ⟨rfl, rfl, ext, a, rest, hd, by simp [step, hs, hf, hk]⟩)
    · exact .inl ⟨rfl, rfl, .inr ⟨ext, a, rest, hd, by simp [step, hs, hf, hk]⟩⟩

/-- The key of an unassigned word is in the namespace of the extended keys and is not JSR's (R47, R89). -/
theorem extKey_toNat (ext : BitVec 6) : (extKey ext).toNat = 0xFF00 + ext.toNat := by revert ext; decide

theorem unassigned_ne_jsr {ws rest : List Word} {ext : BitVec 6} {a : Operand}
    (h : decode ws = .unassigned ext a rest) : ext ≠ jsrExt := by
  cases ws with
  | nil => cases h
  | cons w ws =>
    simp only [decode, decodeHead] at h
    split at h
    · split at h
      · cases h
      · split at h <;> cases h
    · split at h <;> cases h
    · next e c hh =>
      split at hh
      · cases hh
      · split at hh
        · cases hh
        · next hj =>
          cases hh
          split at h
          · cases h
          · cases h
            exact hj

end Sys2Proof.Machine
end

