-- ==== Sys2Proof/Tests/Slice0.lean ====
section
/-! SUPPORT. The model's own tests. Words and expected values come from spec/95_test_vectors.md and the examples of the
instruction rules, cited by table and row; each runs one step. Then one witness per statement with hypotheses. -/

namespace Sys2Proof.Tests

open Sys2Proof Sys2Proof.Machine

/-- The reset state with words at PC, then registers and memory words set (95_test_vectors.md, conventions). -/
def start (ws : List Word) (regs : List (Reg × Word)) (cells : List (Nat × Word)) : State :=
  let s := regs.foldl (fun s p => s.setReg p.1 p.2) (State.reset.placeAtPc ws)
  { s with mem := cells.foldl (fun m p => m.write p.1 p.2) s.mem }

/-- What a test looks at after one step: registers, memory words, counter, skip flag. -/
def sees (s : State) (regs : List (Reg × Word)) (cells : List (Nat × Word)) (cycles : Nat) (skip : Bool) : Bool :=
  regs.all (fun p => s.getReg p.1 == p.2) && cells.all (fun p => s.mem.read p.1 == p.2) &&
    s.cycles == cycles && s.skip == skip

/-! ## Decoding: words written out from the encoding tables (30_encoding.md R40 to R49), every constructor -/

/-- 1.4: 101010 000110 0001. -/
theorem test_decode_set : decode [0xA861] = .ok (.set (.reg .i) (.short 10)) [] := by decide
/-- 1.4. -/
theorem test_decode_set_three_words : decode [0x7DE1, 0x1000, 0x0020] = .ok (.set (.abs 0x1000) (.long 0x0020)) [] := by decide
/-- 1.1 row 1: 100101 000000 0010. -/
theorem test_decode_add : decode [0x9402] = .ok (.add (.reg .a) (.short 5)) [] := by decide
/-- 1.4: 100001 011100 0011. -/
theorem test_decode_sub : decode [0x85C3] = .ok (.sub (.reg .pc) (.short 1)) [] := by decide
/-- MUL row 4: 100010 011101 0100. -/
theorem test_decode_mul : decode [0x89D4] = .ok (.mul (.reg .o) (.short 2)) [] := by decide
/-- DIV row 6: 100000 011000 0101. -/
theorem test_decode_div : decode [0x8185] = .ok (.div .pop (.short 0)) [] := by decide
/-- MOD row 4: 000001 000000 0110. -/
theorem test_decode_mod : decode [0x0406] = .ok (.mod (.reg .a) (.reg .b)) [] := by decide
/-- SHL row 8. -/
theorem test_decode_shl : decode [0x7C07, 0xFFFF] = .ok (.shl (.reg .a) (.long 0xFFFF)) [] := by decide
/-- SHR row 7: 100001 011101 1000. -/
theorem test_decode_shr : decode [0x85D8] = .ok (.shr (.reg .o) (.short 1)) [] := by decide
/-- AND row 1: 000001 000000 1001. -/
theorem test_decode_and : decode [0x0409] = .ok (.and (.reg .a) (.reg .b)) [] := by decide
/-- BOR row 4: 100001 001000 1010. -/
theorem test_decode_bor : decode [0x848A] = .ok (.bor (.ind .a) (.short 1)) [] := by decide
/-- XOR row 7: 011000 011000 1011. -/
theorem test_decode_xor : decode [0x618B] = .ok (.xor .pop .pop) [] := by decide
/-- IFE row 1: 100001 000000 1100. -/
theorem test_decode_ife : decode [0x840C] = .ok (.ife (.reg .a) (.short 1)) [] := by decide
/-- skip row 4: 000000 000000 1101. -/
theorem test_decode_ifn : decode [0x000D] = .ok (.ifn (.reg .a) (.reg .a)) [] := by decide
/-- P3: 000110 100101 1110. -/
theorem test_decode_ifg : decode [0x1A5E] = .ok (.ifg (.short 5) (.reg .i)) [] := by decide
/-- IFB row 9: 110000 000000 1111. -/
theorem test_decode_ifb : decode [0xC00F] = .ok (.ifb (.reg .a) (.short 16)) [] := by decide
/-- 1.4: 011111 000001 0000. -/
theorem test_decode_jsr : decode [0x7C10, 0x0010] = .ok (.jsr (.long 0x0010)) [] := by decide
/-- 011001 011010 0001. -/
theorem test_decode_push_peek : decode [0x65A1] = .ok (.set .push .peek) [] := by decide
/-- 011011 010111 0001. -/
theorem test_decode_idx_sp : decode [0x6D71, 0xFFFF] = .ok (.set (.idx .j 0xFFFF) (.reg .sp)) [] := by decide
/-- 1.4: the zero word is unassigned, key 0xFF00. -/
theorem test_decode_unassigned : decode [0x0000] = .unassigned 0x00 (.reg .a) [] ∧ extKey 0x00 = 0xFF00 := by decide
/-- Faults row 2. -/
theorem test_decode_unassigned_operand : decode [0x7BF0, 0x1000] = .unassigned 0x3F (.abs 0x1000) [] := by decide
theorem test_decode_truncated : decode [0x7C01] = .truncated ∧ decode [] = .truncated := by decide
/-- R42 at the ends of its ranges. -/
theorem test_operand_code_ranges :
    [0x00, 0x07, 0x08, 0x0F, 0x10, 0x17, 0x18, 0x19, 0x1A].map (fun c => operandOf c 9) =
      [.reg .a, .reg .j, .ind .a, .ind .j, .idx .a 9, .idx .j 9, .pop, .peek, .push] ∧
    [0x1B, 0x1C, 0x1D, 0x1E, 0x1F, 0x20, 0x3F].map (fun c => operandOf c 9) =
      [.reg .sp, .reg .pc, .reg .o, .abs 9, .long 9, .short 0, .short 31] := by decide
/-- The host's table word of JSR, its operand field 0x1F and its operand word zero. -/
theorem test_table_word : decodeTableWord 16 0x7C10 = some (.jsr (.long 0)) ∧ decodeTableWord 16 0x0000 = none := by decide

/-! ## WellFormed: an ill-formed term for its one check, and the bound -/

theorem test_wf_refuses_short_32 : (Instr.set (.reg .a) (.short 32)).wf = false ∧ (Instr.jsr (.short 32)).wf = false ∧
    (Instr.add (.short 32) (.reg .a)).wf = false := by decide
theorem test_wf_admits_short_31 : (Instr.set (.reg .a) (.short 31)).wf = true := by decide

/-! ## One step of each instruction -/

/-- SET row 7. -/
theorem test_set_push :
    sees (hostStep (start [0x8DA1] [] [])) [(.sp, 0xFFFE), (.pc, 0x0001)] [(0xFFFE, 0x0003)] 1 false = true := by decide
/-- operand row 4. -/
theorem test_set_indexed_wraps :
    sees (hostStep (start [0x4401, 0xFFFF] [(.b, 0x2002)] [(0x2001, 0x7777)])) [(.a, 0x7777), (.pc, 0x0002)] [] 2 false = true := by decide
/-- ADD row 1. -/
theorem test_add_carry :
    sees (hostStep (start [0x9402] [(.a, 0xFFFF)] [])) [(.a, 0x0004), (.o, 0x0001), (.pc, 0x0001)] [] 2 false = true := by decide
/-- ADD row 9. -/
theorem test_add_pop_sp :
    sees (hostStep (start [0x6D82] [(.sp, 0xFFF0)] [(0xFFF0, 0x0005)])) [(.sp, 0xFFF0), (.pc, 0x0001)] [(0xFFF0, 0xFFF6)] 2 false = true := by decide
/-- SUB row 1. -/
theorem test_sub_borrow :
    sees (hostStep (start [0x9C03] [(.a, 0x0005)] [])) [(.a, 0xFFFE), (.o, 0xFFFF), (.pc, 0x0001)] [] 2 false = true := by decide
/-- SUB row 4. -/
theorem test_sub_pop_pop :
    sees (hostStep (start [0x6183] [(.sp, 0xFFF0)] [(0xFFF0, 0x0003), (0xFFF1, 0x0004)])) [(.sp, 0xFFF1), (.o, 0xFFFF)] [(0xFFF1, 0xFFFF)] 2 false = true := by decide
/-- MUL row 1. -/
theorem test_mul_high_word :
    sees (hostStep (start [0x0404] [(.a, 0xFFFF), (.b, 0xFFFF)] [])) [(.a, 0x0001), (.o, 0xFFFE)] [] 2 false = true := by decide
/-- MUL row 4. -/
theorem test_mul_into_o :
    sees (hostStep (start [0x89D4] [(.o, 0x8001)] [])) [(.o, 0x0001)] [] 2 false = true := by decide
/-- DIV row 3. -/
theorem test_div_fraction :
    sees (hostStep (start [0x0405] [(.a, 0x0001), (.b, 0x0003)] [])) [(.a, 0x0000), (.o, 0x5555)] [] 3 false = true := by decide
/-- DIV row 6. -/
theorem test_div_pop_by_zero :
    sees (hostStep (start [0x8185] [(.sp, 0xFFF0)] [(0xFFF0, 0x0009)])) [(.sp, 0xFFF0), (.o, 0x0000)] [(0xFFF0, 0x0000)] 3 false = true := by decide
/-- MOD row 1. -/
theorem test_mod_keeps_o :
    sees (hostStep (start [0x8806] [(.a, 0x0007), (.o, 0x1234)] [])) [(.a, 0x0001), (.o, 0x1234)] [] 3 false = true := by decide
/-- MOD row 2. -/
theorem test_mod_by_zero :
    sees (hostStep (start [0x8006] [(.a, 0x0007), (.o, 0x1234)] [])) [(.a, 0x0000), (.o, 0x0000)] [] 3 false = true := by decide
/-- SHL row 5. -/
theorem test_shl_by_20 :
    sees (hostStep (start [0xD007] [(.a, 0xABCD)] [])) [(.a, 0x0000), (.o, 0xBCD0)] [] 2 false = true := by decide
/-- SHL row 3. -/
theorem test_shl_out :
    sees (hostStep (start [0x9007] [(.a, 0xABCD)] [])) [(.a, 0xBCD0), (.o, 0x000A)] [] 2 false = true := by decide
/-- SHR row 5. -/
theorem test_shr_by_20 :
    sees (hostStep (start [0xD008] [(.a, 0xABCD)] [])) [(.a, 0x0000), (.o, 0x0ABC)] [] 2 false = true := by decide
/-- SHR row 7. -/
theorem test_shr_into_o :
    sees (hostStep (start [0x85D8] [(.o, 0x0003)] [])) [(.o, 0x0001)] [] 2 false = true := by decide
/-- AND row 1. -/
theorem test_and :
    sees (hostStep (start [0x0409] [(.a, 0xF0F0), (.b, 0xFF00), (.o, 0x0003)] [])) [(.a, 0xF000), (.o, 0x0003)] [] 1 false = true := by decide
/-- BOR row 4. -/
theorem test_bor_memory :
    sees (hostStep (start [0x848A] [(.a, 0x2000)] [(0x2000, 0x0100)])) [(.a, 0x2000)] [(0x2000, 0x0101)] 1 false = true := by decide
/-- XOR row 7. -/
theorem test_xor_pop_pop :
    sees (hostStep (start [0x618B] [(.sp, 0xFFF0)] [(0xFFF0, 0x00FF), (0xFFF1, 0x0F0F)])) [(.sp, 0xFFF1)] [(0xFFF1, 0x0FF0)] 1 false = true := by decide
/-- IFE row 2. -/
theorem test_ife_skips :
    sees (hostStep (start [0x840C] [(.a, 0x0002)] [])) [(.a, 0x0002), (.pc, 0x0001)] [] 2 true = true := by decide
/-- IFE row 3. -/
theorem test_ife_pop_pop :
    sees (hostStep (start [0x618C] [(.sp, 0xFFF0)] [(0xFFF0, 0x0005), (0xFFF1, 0x0005)])) [(.sp, 0xFFF2)] [] 2 false = true := by decide
/-- IFN row 4. -/
theorem test_ifn_skips :
    sees (hostStep (start [0x840D] [(.a, 0x0001)] [])) [(.pc, 0x0001)] [] 2 true = true := by decide
/-- IFG row 6. -/
theorem test_ifg_unsigned :
    sees (hostStep (start [0x040E] [(.a, 0x8000), (.b, 0x7FFF)] [])) [(.pc, 0x0001)] [] 2 false = true := by decide
/-- IFG row 7. -/
theorem test_ifg_equal_skips :
    sees (hostStep (start [0x040E] [(.a, 0x0003), (.b, 0x0003)] [])) [(.pc, 0x0001)] [] 2 true = true := by decide
/-- IFB row 9. -/
theorem test_ifb_skips :
    sees (hostStep (start [0xC00F] [(.a, 0x000F)] [])) [(.pc, 0x0001)] [] 2 true = true := by decide
/-- IFB row 10. -/
theorem test_ifb_common_bit :
    sees (hostStep (start [0xA00F] [(.a, 0x000F)] [])) [(.pc, 0x0001)] [] 2 false = true := by decide
/-- JSR row 1. -/
theorem test_jsr_literal :
    sees (hostStep (start [0x7C10, 0x0010] [] [])) [(.sp, 0xFFFE), (.pc, 0x0010)] [(0xFFFE, 0x0002)] 3 false = true := by decide
/-- JSR row 4. -/
theorem test_jsr_pop :
    sees (hostStep (start [0x6010] [] [])) [(.sp, 0xFFFF), (.pc, 0x0001)] [(0xFFFE, 0x0001)] 2 false = true := by decide
/-- Skip row 2, second step: three words consumed, 3 cycles, nothing stored, the flag clear. -/
theorem test_skip_three_words :
    sees (hostStep ((start [0x7DE1, 0x1000, 0x0020] [] []).setSkip true)) [(.pc, 3)] [(0x1000, 0)] 3 false = true := by decide
/-- Faults row 2: PC and the counter keep the fetch, the record names the key and the word's address. -/
theorem test_fault_record :
    (hostStep (start [0x7BF0, 0x1000] [] [])).status = .faulted ⟨.unknownOpcode, 0xFF3F, 0x0000⟩ ∧
    sees (hostStep (start [0x7BF0, 0x1000] [] [])) [(.pc, 2), (.sp, 0xFFFF)] [] 1 false = true := by decide
/-- 1.2: a load of 0x10002 words wraps; here its last two words at their offsets. -/
theorem test_memory_alias : ((State.reset.mem.write 0x10000 0x1111).write 0x10001 0x2222).read 0x0001 = 0x2222 ∧
    ((State.reset.mem.write 0x10000 0x1111).write 0x10001 0x2222).read 0x0000 = 0x1111 := by decide
/-- The host's table word runs as the first instruction after reset. -/
theorem test_withFetchWord : step (State.reset.withFetchWord 16 0x7C10) =
    exec (.jsr (.long 0)) ((State.reset.withFetchWord 16 0x7C10).advanced 1) := rfl

/-! ## Witnesses: a concrete state and operands that meet the hypotheses of each statement that has some -/

/-- A running state: `ADD A, 5` at PC. -/
def addState : State := start [0x9402] [(.a, 0xFFFF)] []
/-- A running state: an unassigned word with an extension word at PC. -/
def faultState : State := start [0x7BF0, 0x1000] [] []
/-- A stopped state. -/
def stoppedState : State := hostStep faultState

theorem witness_DecodeOfEncodeIsTheInstruction : (Instr.add (.idx .b 0x10) (.short 31)).wf = true := by decide
theorem witness_DecodedWordsAreTheEncoding : decode [0x7C01, 0x0030, 0x1234] = .ok (.set (.reg .a) (.long 0x0030)) [0x1234] := by
  decide
theorem witness_OnlyUnassigned : (0x0020 : Word).toNat % 16 = 0 ∧ (0x0020 : Word).toNat / 16 % 64 ≠ 1 ∧
    ¬((0x0010 : Word).toNat % 16 = 0 ∧ (0x0010 : Word).toNat / 16 % 64 ≠ 1) := by decide
theorem witness_BasicWordFields : opField 0x7DE1 ≠ 0 ∧ takeOperand (aField 0x7DE1) [1, 2] = some (.abs 1, [2]) ∧
    takeOperand (bField 0x7DE1) [2] = some (.long 2, []) := by decide
theorem witness_ExtendedWordFields : (0x7C10 : Word).toNat % 2 ^ 4 = 0 := by decide
theorem witness_KeyOfInstructionWord : (0xFFFF : Word).toNat % 16 ≠ 0 ∧ (decodeHead 0xFFFF).key = 0xF ∧
    (0xFFF0 : Word).toNat % 16 = 0 ∧ (decodeHead 0xFFF0).key = 0xFF3F ∧ (decodeHead 0x0000).key = 0xFF00 := by decide
theorem witness_BasicOpcodeMapAndCosts : (0xF : BitVec 4) ≠ 0 ∧ BasicOp.ofBits 0xF = some .ifb ∧ BasicOp.ofBits 0 = none := by
  decide
/-- Both ends of every range of codes; each code is in one range only. -/
theorem witness_ResolveByOperandCode :
    [0x00, 0x07, 0x08, 0x0F, 0x10, 0x17, 0x18, 0x19, 0x1A, 0x1B, 0x1C, 0x1D, 0x1E, 0x1F, 0x20, 0x3F].map
      (fun c => resolve (fetchOperand c (start [0x0011] [(.a, 2), (.j, 3)] [])).1 (start [0x0011] [(.a, 2), (.j, 3)] [])) =
    [.reg .a, .reg .j, .mem 2, .mem 3, .mem 0x13, .mem 0x14, .stack none, .peek, .stack none, .reg .sp, .reg .pc, .reg .o,
      .mem 0x11, .lit 0x11, .lit 0, .lit 31] := by decide
theorem witness_ImmediateAssembly : 0x20 ≤ (0x20 : BitVec 6).toNat ∧ 0x20 ≤ (0x3F : BitVec 6).toNat ∧
    0x10 ≤ (0x10 : BitVec 6).toNat ∧ (0x17 : BitVec 6).toNat ≤ 0x17 ∧
    (1 : Word) ≠ 0 ∧ (0xFFFF : Word).toNat = 0x10000 - (1 : Word).toNat := by decide
theorem witness_ExtensionWordOrder : decodeHead ((start [0x7DE1, 0x1000, 0x0020] [] []).readWord 0) = .basic .set 0x1E 0x1F := by
  decide
theorem witness_CanonicalMemories : ({ cells := [(1, 2), (0xFFFF, 3)] } : Memory).wf = true ∧
    ({ cells := [(1, 0)] } : Memory).wf = false ∧ ({ cells := [(2, 1), (1, 1)] } : Memory).wf = false ∧
    ({ cells := [(0x10000, 1)] } : Memory).wf = false := by decide
theorem witness_FetchReadsAndAdvancesPc : takesWord 0x1F = true ∧ decodeHead addState.fetch.1 = .basic .add 0x00 0x25 ∧
    decodeHead (start [0x7C10] [] []).fetch.1 = .jsr 0x1F ∧ decodeHead faultState.fetch.1 = .unassigned 0x3F 0x1E := by decide
theorem witness_MemoryAndLiteralHandles : 0x20 ≤ (0x20 : BitVec 6).toNat ∧ resolve (operandOf 0x3F 0) State.reset = .lit 31 := by
  decide
theorem witness_LoadStoresTheWords_last : (1 : Nat) < ([7, -2] : List Int).length ∧
    (∀ j, 1 < j → j < ([7, -2] : List Int).length → j % 0x10000 ≠ 1 % 0x10000) ∧
    hostReadMemory 1 (hostLoad [7, -2] State.reset) = 0xFFFE :=
  ⟨by decide, fun j h1 h2 => by simp at h2; omega, by decide⟩
theorem witness_LoadStoresTheWords_untouched : ∀ i, i < ([7, -2] : List Int).length → i % 0x10000 ≠ 2 % 0x10000 :=
  fun i h => by simp at h; omega
theorem witness_RunEndsWithinTheBudget : addState.cycles < 1 ∧ 1 ≤ (hostStep addState).cycles ∧ (hostRun 1 addState).status = .idle ∧
    (hostRun 1 addState).cycles = 2 := by decide
theorem witness_FaultedIsLeftOnlyByReset : stoppedState.status ≠ .idle ∧ HostOp.run 5 ≠ .reset := by decide
theorem witness_CyclesNeverDecrease : HostOp.step ≠ .reset := by decide
theorem witness_StepRunsTheDecodedInstruction : addState.status = .idle ∧ addState.skip = false ∧
    decode addState.window = .ok (.add (.reg .a) (.short 5)) [0, 0] := by decide
theorem witness_StepSkipsOneInstruction : (addState.setSkip true).status = .idle ∧ (addState.setSkip true).skip = true ∧
    decode (addState.setSkip true).window = .ok (.add (.reg .a) (.short 5)) [0, 0] ∧
    (faultState.setSkip true).status = .idle ∧ (faultState.setSkip true).skip = true ∧
    decode (faultState.setSkip true).window = .unassigned 0x3F (.abs 0x1000) [0] := by decide
theorem witness_StepFaultsOnUnassignedKey : faultState.status = .idle ∧ faultState.skip = false ∧
    decode faultState.window = .unassigned 0x3F (.abs 0x1000) [0] := by decide
theorem witness_CycleAccounting_skipped : (faultState.setSkip true).status = .idle ∧
    step (faultState.setSkip true) = .next (hostStep (faultState.setSkip true)) ∧
    (hostStep (faultState.setSkip true)).cycles = 2 := ⟨rfl, rfl, by decide⟩
theorem witness_StepAlwaysCompletes : addState.status = .idle ∧ stoppedState.status ≠ .idle := by decide
theorem witness_CycleAccountingOfAStep : step addState = .next (hostStep addState) ∧ step faultState = .next (hostStep faultState) ∧
    addState.status = .idle ∧ faultState.status = .idle := ⟨rfl, rfl, rfl, rfl⟩
theorem witness_StepKeepsTheMachineInvariant : addState.Inv ∧ step addState = .next (hostStep addState) :=
  ⟨⟨by decide, trivial, fun h => absurd rfl h⟩, rfl⟩
theorem witness_HostOperationsKeepTheMachineInvariant : stoppedState.Inv := ⟨by decide, ⟨rfl, by decide, by decide, by decide⟩, fun _ => rfl⟩
theorem witness_SkipLastsOneInstruction :
    (addState.setSkip true).skip = true ∧ (hostStep (addState.setSkip true)).skip = false ∧
    (start [0x840C] [] []).skip = false ∧ (hostStep (start [0x840C] [] [])).skip = true := by decide
theorem witness_DivAndModEffect : (operandValue (.short 0) State.reset).toNat = 0 ∧ (operandValue (.short 2) State.reset).toNat ≠ 0 := by
  decide
/-- Every frame statement's instructions answer a next state (for every state and operands, `exec_spec`), here on one state. -/
theorem witness_Frames :
    [Instr.add .pop .peek, .sub .pop .peek, .mul .pop .peek, .div .pop .peek, .shl .pop .peek, .shr .pop .peek,
      .mod .pop .peek, .set .pop .peek, .and .pop .peek, .bor .pop .peek, .xor .pop .peek, .ife .pop .peek, .ifn .pop .peek,
      .ifg .pop .peek, .ifb .pop .peek, .jsr .peek].all
      (fun i => match exec i addState with | .next t => t.cycles == cost i | .fault _ => false | .refused _ => false) = true ∧
    (resolve .pop addState).storeAddress (readBoth .pop .peek addState).state ≠ some 0x1000 ∧
    (Operand.pop ≠ .reg .a ∧ Reg.a ≠ .o) := by decide
theorem witness_GeneralRegisters : instrNames .b (.add (.reg .a) (.idx .c 7)) = false ∧
    instrNames .c (.add (.reg .a) (.idx .c 7)) = true ∧ (operandsOf (.add (.reg .a) (.reg .b))).1 ≠ .reg GReg.b.toReg ∧
    (match exec (.add (.reg .a) (.idx .c 7)) addState with | .next _ => true | .fault _ => false | .refused _ => false) = true := by
  decide
theorem witness_NoInstructionReadsOImplicitly : instrNames .o (.mod (.reg .a) (.short 2)) = false ∧
    (match exec (.mod (.reg .a) (.short 2)) addState with | .next _ => true | .fault _ => false | .refused _ => false) = true := by
  decide
/-- One witness for each clause on the state after: every writer answers a next state with `O` as destination too. -/
theorem witness_WritersOfO : Operand.reg .a ≠ .reg .o ∧ isConditional (.ife (.reg .o) (.reg .o)) = true ∧
    (operandValue (.short 0) addState).toNat = 0 ∧ (operandValue (.short 2) addState).toNat ≠ 0 ∧
    [Instr.add (.reg .o) (.short 2), .sub (.reg .o) (.short 2), .mul (.reg .o) (.short 2), .div (.reg .o) (.short 0),
      .div (.reg .o) (.short 2), .shl (.reg .o) (.short 2), .shr (.reg .o) (.short 2), .shr (.reg .a) (.short 2),
      .mod (.reg .o) (.short 0), .mod (.reg .a) (.short 2), .mod (.reg .o) (.short 2), .set (.reg .o) (.short 2),
      .and (.reg .o) (.short 2), .bor (.reg .o) (.short 2), .xor (.reg .o) (.short 2)].all
      (fun i => match exec i addState with | .next _ => true | .fault _ => false | .refused _ => false) = true := by decide
theorem witness_ProgramsCannotSeeTheCycleCounter : step addState = .next (hostStep addState) ∧ (hostStep addState).cycles = 2 :=
  ⟨rfl, by decide⟩
theorem witness_ObservationPointsOfAStep : (observations addState).map (·.point) =
      [.beforeStep, .beforeExecution, .afterExecution, .afterStep] ∧
    (observations (addState.setSkip true)).map (·.point) = [.beforeStep, .skippedInstruction, .afterStep] ∧
    (observations faultState).map (·.point) = [.beforeStep] ∧ observations stoppedState = [] := by decide
/-- The hypotheses of its clauses on a running and on a skipped step; the counter at each point of a running one (`ADD A, 5`). -/
theorem witness_ObservationPointsOfAStep_clauses : addState.status = .idle ∧ addState.skip = false ∧
    decode addState.window = .ok (.add (.reg .a) (.short 5)) [0, 0] ∧
    (observations addState).map (·.cpu.cycles) = [0, 2, 2, 2] ∧
    (addState.setSkip true).skip = true ∧ decode (addState.setSkip true).window = .ok (.add (.reg .a) (.short 5)) [0, 0] ∧
    decode (faultState.setSkip true).window = .unassigned 0x3F (.abs 0x1000) [0] ∧
    (observations (faultState.setSkip true)).map (·.point) = [.beforeStep, .skippedInstruction, .afterStep] := by decide
/-- The later state has run on: another PC, another register. -/
theorem witness_SetPcPopReturnsFromJsr : isStackSlot (.long 0x10) = false ∧
    exec (.jsr (.long 0x10)) addState = .next (((addState.push 0).setReg .pc 0x10).tick 2) ∧
    (((addState.push 0).setReg .pc 0x55).setReg .b 7).getReg .sp = (((addState.push 0).setReg .pc 0x10).tick 2).getReg .sp ∧
    (((addState.push 0).setReg .pc 0x55).setReg .b 7).readWord 0xFFFE =
      (((addState.push 0).setReg .pc 0x10).tick 2).readWord 0xFFFE := ⟨by decide, rfl, by decide, by decide⟩
theorem witness_StoreIsSeenByTheNextFetch :
    exec (.set (.abs 0) (.long 0x85C3)) addState = .next ((addState.writeWord 0 0x85C3).tick 1) ∧
    ((addState.writeWord 0 0x85C3).tick 1).getReg .pc = 0 := ⟨rfl, by decide⟩

end Sys2Proof.Tests
end

/-! PROOFS. R14, the general registers: how a write to a register passes through the shared operations of the instruction
rules, and from it that an instruction uses a general register only through its operand codes. -/

namespace Sys2Proof.Machine

/-! ## A register write passes through the shared operations -/

theorem State.setReg_comm (s : State) (r q : Reg) (v w : Word) (h : r ≠ q) :
    (s.setReg r v).setReg q w = (s.setReg q w).setReg r v :=
  congrArg (fun f : RegFile => { s with regs := f }) (RegFile.set_comm s.regs r q v w h)

theorem State.writeWord_setReg (s : State) (r : Reg) (v k w : Word) :
    (s.setReg r v).writeWord k w = (s.writeWord k w).setReg r v := rfl

theorem State.push_setReg (s : State) (r : Reg) (v w : Word) (hsp : r ≠ .sp) :
    (s.setReg r v).push w = (s.push w).setReg r v := by
  simp only [State.push_eq, State.getReg_setReg_ne s r .sp v hsp.symm, State.setReg_comm s r .sp v _ hsp,
    State.writeWord_setReg]

/-- The value of an operand does not depend on a register it does not name. SP is left out: `pop`, `push` and `peek` read it,
and `operandNames` does not count that as naming it. -/
theorem operandValue_setReg (a : Operand) (s : State) (r : Reg) (v : Word) (hsp : r ≠ .sp)
    (ha : operandNames r a = false) : operandValue a (s.setReg r v) = operandValue a s := by
  have keep : ∀ q : Reg, q ≠ r → (s.setReg r v).getReg q = s.getReg q := fun q => State.getReg_setReg_ne s r q v
  have top : (s.setReg r v).readWord ((s.setReg r v).getReg .sp) = s.readWord (s.getReg .sp) := by
    rw [keep .sp hsp.symm, State.readWord_setReg]
  cases a with
  | reg q => exact keep q (of_decide_eq_false ha)
  | ind g => simp only [operandValue, keep _ (of_decide_eq_false ha), State.readWord_setReg]
  | idx g n => simp only [operandValue, keep _ (of_decide_eq_false ha), State.readWord_setReg]
  | pop => exact top
  | push => exact top
  | peek => exact top
  | abs n => rfl
  | long n => rfl
  | short n => rfl

theorem afterRead_setReg (a : Operand) (s : State) (r : Reg) (v : Word) (hsp : r ≠ .sp) :
    afterRead a (s.setReg r v) = (afterRead a s).setReg r v := by
  unfold afterRead
  split
  · rw [State.getReg_setReg_ne s r .sp v hsp.symm, State.setReg_comm s r .sp v _ hsp]
  · rfl

theorem storeOperand_setReg (a : Operand) (w : Word) (s0 s : State) (r : Reg) (v : Word) (hsp : r ≠ .sp)
    (ha : operandNames r a = false) :
    storeOperand a w (s0.setReg r v) (s.setReg r v) = (storeOperand a w s0 s).setReg r v := by
  cases a with
  | reg q => exact State.setReg_comm s r q v w (Ne.symm (of_decide_eq_false ha))
  | ind g => simp only [storeOperand, State.getReg_setReg_ne s0 r _ v (of_decide_eq_false ha), State.writeWord_setReg]
  | idx g n => simp only [storeOperand, State.getReg_setReg_ne s0 r _ v (of_decide_eq_false ha), State.writeWord_setReg]
  | pop => simpa only [storeOperand, State.push_eq] using State.push_setReg s r v w hsp
  | push => simpa only [storeOperand, State.push_eq] using State.push_setReg s r v w hsp
  | abs n => rfl
  | peek => rfl
  | long n => rfl
  | short n => rfl

/-- A write to an operand reaches a general register only where that register is the operand. -/
theorem storeOperand_greg (a : Operand) (w : Word) (s0 s : State) (g : GReg) (ha : a ≠ .reg g.toReg) :
    (storeOperand a w s0 s).getReg g.toReg = s.getReg g.toReg :=
  storeOperand_getReg a w s0 s g.toReg ha (fun h => GReg.toReg_ne_sp g h.1)

theorem setReg_o_greg (s : State) (w : Word) (g : GReg) : (s.setReg .o w).getReg g.toReg = s.getReg g.toReg :=
  State.getReg_setReg_ne s .o g.toReg w (GReg.toReg_ne_o g)

theorem push_greg (s : State) (w : Word) (g : GReg) : (s.push w).getReg g.toReg = s.getReg g.toReg := by
  rw [State.push_eq, State.getReg_writeWord, State.getReg_setReg_ne s .sp g.toReg _ (GReg.toReg_ne_sp g)]

/-! ## The four shapes, MOD, SET and JSR -/

/-- R14 for one instruction, of the function that gives its next state: a general register that is not the destination is
kept, and one that no operand names is carried along unread. -/
def UsesGeneralRegistersAsNamed (i : Instr) (next : State → State) : Prop :=
  ∀ (g : GReg) (s : State),
    ((operandsOf i).1 ≠ .reg g.toReg → (next s).getReg g.toReg = s.getReg g.toReg) ∧
    (instrNames g.toReg i = false → ∀ v, next (s.setReg g.toReg v) = (next s).setReg g.toReg v)

theorem instrNames_eq_false_iff {i : Instr} {a b : Operand} (hi : operandsOf i = (a, some b)) (r : Reg) :
    instrNames r i = false ↔ operandNames r a = false ∧ operandNames r b = false := by
  simp [instrNames, hi]

/-- The two values read and the state after the reads, when a register no operand names is written before. -/
theorem reads_setReg (a b : Operand) (s : State) (r : Reg) (v : Word) (hsp : r ≠ .sp)
    (ha : operandNames r a = false) (hb : operandNames r b = false) :
    operandValue a (s.setReg r v) = operandValue a s ∧
    operandValue b (afterRead a (s.setReg r v)) = operandValue b (afterRead a s) ∧
    afterRead b (afterRead a (s.setReg r v)) = (afterRead b (afterRead a s)).setReg r v := by
  refine ⟨operandValue_setReg a s r v hsp ha, ?_, ?_⟩
  · rw [afterRead_setReg a s r v hsp, operandValue_setReg b _ r v hsp hb]
  · rw [afterRead_setReg a s r v hsp, afterRead_setReg b _ r v hsp]

section Shapes

variable {i : Instr} {a b : Operand} (hi : operandsOf i = (a, some b)) (n : Nat)
include hi

theorem setOnly_usesNamed (f : Word → Word → Word) :
    UsesGeneralRegistersAsNamed i (fun s => setOnly f a b (s.tick n)) := by
  intro g s
  simp only [setOnly_spec, instrNames_eq_false_iff hi, hi]
  refine ⟨fun hd => ?_, fun ⟨ha, hb⟩ v => ?_⟩
  · simp only [State.getReg_tick, storeOperand_greg a _ _ _ g hd, afterRead_greg]
  · obtain ⟨hva, hvb, hst⟩ := reads_setReg a b s g.toReg v (GReg.toReg_ne_sp g) ha hb
    rw [hva, hvb, hst, storeOperand_setReg a _ s _ g.toReg v (GReg.toReg_ne_sp g) ha, setReg_tick]

theorem setThenO_usesNamed (f o : Word → Word → Word) :
    UsesGeneralRegistersAsNamed i (fun s => setThenO f o a b (s.tick n)) := by
  intro g s
  simp only [setThenO_spec, instrNames_eq_false_iff hi, hi]
  refine ⟨fun hd => ?_, fun ⟨ha, hb⟩ v => ?_⟩
  · simp only [State.getReg_tick, setReg_o_greg, storeOperand_greg a _ _ _ g hd, afterRead_greg]
  · obtain ⟨hva, hvb, hst⟩ := reads_setReg a b s g.toReg v (GReg.toReg_ne_sp g) ha hb
    rw [hva, hvb, hst, storeOperand_setReg a _ s _ g.toReg v (GReg.toReg_ne_sp g) ha,
      State.setReg_comm _ _ _ _ _ (GReg.toReg_ne_o g), setReg_tick]

theorem oThenSet_usesNamed (f o : Word → Word → Word) :
    UsesGeneralRegistersAsNamed i (fun s => oThenSet f o a b (s.tick n)) := by
  intro g s
  simp only [oThenSet_spec, instrNames_eq_false_iff hi, hi]
  refine ⟨fun hd => ?_, fun ⟨ha, hb⟩ v => ?_⟩
  · simp only [State.getReg_tick, storeOperand_greg a _ _ _ g hd, setReg_o_greg, afterRead_greg]
  · obtain ⟨hva, hvb, hst⟩ := reads_setReg a b s g.toReg v (GReg.toReg_ne_sp g) ha hb
    rw [hva, hvb, hst, State.setReg_comm _ _ _ _ _ (GReg.toReg_ne_o g),
      storeOperand_setReg a _ s _ g.toReg v (GReg.toReg_ne_sp g) ha, setReg_tick]

theorem skipIf_usesNamed (c : Word → Word → Bool) :
    UsesGeneralRegistersAsNamed i (fun s => skipIf c a b (s.tick n)) := by
  intro g s
  simp only [skipIf_spec, instrNames_eq_false_iff hi]
  refine ⟨fun _ => ?_, fun ⟨ha, hb⟩ v => ?_⟩
  · split <;> simp only [State.getReg_setSkip, State.getReg_tick, afterRead_greg]
  · obtain ⟨hva, hvb, hst⟩ := reads_setReg a b s g.toReg v (GReg.toReg_ne_sp g) ha hb
    rw [hva, hvb, hst]
    split <;> rfl

end Shapes

/-- The state after `MOD a, b` (R76), as `execMod_spec` gives it. -/
def modNext (a b : Operand) (s : State) : State :=
  let stored := storeOperand a (modResult (operandValue a s) (operandValue b (afterRead a s))) s (afterRead b (afterRead a s))
  (if operandValue b (afterRead a s) = 0 then stored.setReg .o 0 else stored).tick 3

theorem modNext_usesNamed (a b : Operand) : UsesGeneralRegistersAsNamed (.mod a b) (modNext a b) := by
  intro g s
  simp only [modNext, instrNames_eq_false_iff (show operandsOf (.mod a b) = (a, some b) from rfl)]
  refine ⟨fun hd => ?_, fun ⟨ha, hb⟩ v => ?_⟩
  · split <;> simp only [State.getReg_tick, setReg_o_greg, storeOperand_greg a _ _ _ g hd, afterRead_greg]
  · obtain ⟨hva, hvb, hst⟩ := reads_setReg a b s g.toReg v (GReg.toReg_ne_sp g) ha hb
    rw [hva, hvb, hst, storeOperand_setReg a _ s _ g.toReg v (GReg.toReg_ne_sp g) ha]
    split
    · rw [State.setReg_comm _ _ _ _ _ (GReg.toReg_ne_o g), setReg_tick]
    · rfl

/-- SET: everything it can do. -/
theorem execSet_spec (a b : Operand) (s : State) :
    execSet a b s = .next ((storeOperand a (operandValue b s) s (afterRead b s)).tick 1) := by
  simp only [execSet, cost, get_resolve_value, get_resolve_state, set_resolve, operandValue_tick, afterRead_tick,
    storeOperand_tick]

theorem set_usesNamed (a b : Operand) :
    UsesGeneralRegistersAsNamed (.set a b) (fun s => (storeOperand a (operandValue b s) s (afterRead b s)).tick 1) := by
  intro g s
  simp only [instrNames_eq_false_iff (show operandsOf (.set a b) = (a, some b) from rfl)]
  refine ⟨fun hd => ?_, fun ⟨ha, hb⟩ v => ?_⟩
  · simp only [State.getReg_tick, storeOperand_greg a _ _ _ g hd, afterRead_greg]
  · rw [operandValue_setReg b s _ v (GReg.toReg_ne_sp g) hb, afterRead_setReg b s _ v (GReg.toReg_ne_sp g),
      storeOperand_setReg a _ s _ _ v (GReg.toReg_ne_sp g) ha, setReg_tick]

theorem jsr_usesNamed (a : Operand) :
    UsesGeneralRegistersAsNamed (.jsr a) (fun s =>
      ((afterRead a (s.push (s.getReg .pc))).setReg .pc (operandValue a (s.push (s.getReg .pc)))).tick 2) := by
  intro g s
  refine ⟨fun _ => ?_, fun hn v => ?_⟩
  · simp only [State.getReg_tick, State.getReg_setReg_ne _ .pc _ _ (GReg.toReg_ne_pc g), afterRead_greg, push_greg]
  · have ha : operandNames g.toReg a = false := by simpa [instrNames, operandsOf] using hn
    simp only [State.getReg_setReg_ne s _ .pc v (GReg.toReg_ne_pc g).symm, State.push_setReg s _ v _ (GReg.toReg_ne_sp g),
      operandValue_setReg a _ _ v (GReg.toReg_ne_sp g) ha, afterRead_setReg a _ _ v (GReg.toReg_ne_sp g),
      State.setReg_comm _ _ .pc v _ (GReg.toReg_ne_pc g), setReg_tick]

/-! ## Every instruction, and the operand codes -/

/-- What `exec` answers is a next state, by a function that uses the general registers as R14 says. -/
theorem exec_usesNamed (i : Instr) :
    ∃ next, (∀ s, exec i s = .next (next s)) ∧ UsesGeneralRegistersAsNamed i next := by
  cases i with
  | set a b => exact ⟨_, execSet_spec a b, set_usesNamed a b⟩
  | add a b => exact ⟨_, fun _ => rfl, setThenO_usesNamed rfl _ _ _⟩
  | sub a b => exact ⟨_, fun _ => rfl, setThenO_usesNamed rfl _ _ _⟩
  | mul a b => exact ⟨_, fun _ => rfl, setThenO_usesNamed rfl _ _ _⟩
  | div a b => exact ⟨_, fun _ => rfl, setThenO_usesNamed rfl _ _ _⟩
  | mod a b => exact ⟨modNext a b, execMod_spec a b, modNext_usesNamed a b⟩
  | shl a b => exact ⟨_, fun _ => rfl, setThenO_usesNamed rfl _ _ _⟩
  | shr a b => exact ⟨_, fun _ => rfl, oThenSet_usesNamed rfl _ _ _⟩
  | and a b => exact ⟨_, fun _ => rfl, setOnly_usesNamed rfl _ _⟩
  | bor a b => exact ⟨_, fun _ => rfl, setOnly_usesNamed rfl _ _⟩
  | xor a b => exact ⟨_, fun _ => rfl, setOnly_usesNamed rfl _ _⟩
  | ife a b => exact ⟨_, fun _ => rfl, skipIf_usesNamed rfl _ _⟩
  | ifn a b => exact ⟨_, fun _ => rfl, skipIf_usesNamed rfl _ _⟩
  | ifg a b => exact ⟨_, fun _ => rfl, skipIf_usesNamed rfl _ _⟩
  | ifb a b => exact ⟨_, fun _ => rfl, skipIf_usesNamed rfl _ _⟩
  | jsr a => exact ⟨_, execJsr_pushed a, jsr_usesNamed a⟩

/-- The three blocks of eight codes that name a general register, by position (30_encoding.md R42). -/
theorem operandOf_gregCode (k : Nat) (n : Word) (hk : k < 8) :
    operandOf (BitVec.ofNat 6 k) n = .reg (gregOf k).toReg ∧
    operandOf (BitVec.ofNat 6 (0x08 + k)) n = .ind (gregOf k) ∧
    operandOf (BitVec.ofNat 6 (0x10 + k)) n = .idx (gregOf k) n := by
  interval_cases k <;> exact ⟨rfl, rfl, rfl⟩

/-- Settles O52: the codes and their handles by the tables, the use of the registers by `exec_usesNamed`. -/
theorem generalRegistersOnlyThroughOperandCodes : Obligations.GeneralRegistersOnlyThroughOperandCodes := by
  unfold Obligations.GeneralRegistersOnlyThroughOperandCodes
  refine ⟨operandOf_gregCode, fun _ _ _ => ⟨rfl, rfl, rfl⟩, rfl,
    fun g s v => State.getReg_setReg_self s g.toReg v, fun i g s t ht => ?_⟩
  obtain ⟨next, hexec, huse⟩ := exec_usesNamed i
  obtain rfl : next s = t := Host.Outcome.next.inj ((hexec s).symm.trans ht)
  obtain ⟨hkeep, hcarry⟩ := huse g s
  exact ⟨hkeep, fun hn v => (hexec _).trans (congrArg Host.Outcome.next (hcarry hn v))⟩

end Sys2Proof.Machine

/-! PROOFS. R26, R34 and R35, the memory: the sums modulo 0x10000 that make its addresses, the wrap of an offset on every
access, and the memory that the host wipes and reads. -/

namespace Sys2Proof.Machine

/-! ## Addresses computed by the core -/

theorem resolve_idx_toNat (g : GReg) (e : Word) (s : State) :
    ∃ addr : Word, resolve (.idx g e) s = .mem addr ∧
      addr.toNat = ((s.getReg g.toReg).toNat + e.toNat) % 0x10000 :=
  ⟨_, rfl, BitVec.toNat_add _ _⟩

theorem fetch_pc_toNat (s : State) :
    (s.fetch.2.getReg .pc).toNat = ((s.getReg .pc).toNat + 1) % 0x10000 := by
  rw [State.fetch_state, State.getReg_setReg_self]
  exact BitVec.toNat_add _ _

theorem pop_sp_toNat (s : State) : (s.pop.2.getReg .sp).toNat = ((s.getReg .sp).toNat + 1) % 0x10000 := by
  rw [State.pop_state, State.getReg_setReg_self]
  exact BitVec.toNat_add _ _

/-- The decrement of a push, as the sum that stays in the natural numbers. -/
theorem pushAddress_toNat (s : State) : s.pushAddress.toNat = ((s.getReg .sp).toNat + 0xFFFF) % 0x10000 := by
  rw [State.pushAddress, BitVec.toNat_sub, Nat.add_comm]
  rfl

/-- Settles O12: the computed addresses are sums of Words, and an access by `Memory.read_mod`, `Memory.write_mod` and
`Memory.read_write` depends on its offset only modulo the size of the array. -/
theorem memoryAccessWraps : Obligations.MemoryAccessWraps := by
  unfold Obligations.MemoryAccessWraps
  intro m n k v s g e
  exact ⟨resolve_idx_toNat g e s, fetch_pc_toNat s, pop_sp_toNat s, pushAddress_toNat s,
    (m.read_mod n).symm, (m.write_mod n v).symm, m.read_write n k v⟩

/-! ## The host's wipe and its read -/

/-- A memory with no cell listed reads as 0 at every offset. -/
theorem Memory.read_empty (n : Nat) : ({ cells := [] } : Memory).read n = 0 := rfl

/-- Settles O19: wipe leaves the memory with no cell listed, which is also the reset memory. -/
theorem wipeZeroesMemory : Obligations.WipeZeroesMemory := by
  unfold Obligations.WipeZeroesMemory
  exact fun s => ⟨Memory.read_empty, rfl, rfl, rfl, rfl, rfl⟩

/-- Offsets that agree modulo the size of the array read alike. -/
theorem Memory.read_congr (m : Memory) {n k : Nat} (h : n % Config.memWords = k % Config.memWords) :
    m.read n = m.read k := by
  rw [← m.read_mod n, h, m.read_mod k]

theorem hostReadMemory_eq_readWord (s : State) (n : Nat) :
    hostReadMemory n s = s.readWord (BitVec.ofNat 16 n) := by
  rw [State.readWord, BitVec.toNat_ofNat]
  exact (s.mem.read_mod n).symm

/-- Settles O20: the host reads the word at the wrapped offset, so a word written at 0x10001 is the one read at 1. -/
theorem hostMemoryReadWraps : Obligations.HostMemoryReadWraps := by
  unfold Obligations.HostMemoryReadWraps
  intro s n v
  refine ⟨hostReadMemory_eq_readWord s n, ?_, fun k => ?_⟩
  · have same_cell : 0x0001 % Config.memWords = 0x10001 % Config.memWords := rfl
    exact (s.mem.read_write 0x10001 0x0001 v).trans (if_pos same_cell)
  · exact s.mem.read_congr (Nat.add_mul_mod_self_left n Config.memWords k)

end Sys2Proof.Machine

/-! PROOFS. R40, R43, R47 and R48, the encoding: the fields of an instruction word, the head they decode to and its key, the
basic opcode map, and the literals and addresses an operand code makes with its extension word. -/

namespace Sys2Proof

/-! ## The head of a word, by its opcode field -/

/-- A word put together from its own fields (R40). -/
theorem toNat_eq_fields (w : Word) :
    w.toNat = (bField w).toNat * 2 ^ 10 + (aField w).toNat * 2 ^ 4 + (opField w).toNat := by
  rw [opField_toNat, aField_toNat, bField_toNat]
  omega

/-- The opcode map misses only 0x0, and `BasicOp.bits` undoes it (R48). -/
theorem ofBits_map_bits (op : BitVec 4) :
    (BasicOp.ofBits op).map BasicOp.bits = if op = 0 then none else some op := by
  revert op
  decide

theorem exists_ofBits {op : BitVec 4} (h : op ≠ 0) : ∃ o, BasicOp.ofBits op = some o ∧ o.bits = op :=
  Option.map_eq_some_iff.mp ((ofBits_map_bits op).trans (if_neg h))

theorem decodeHead_of_ofBits {w : Word} {op : BasicOp} (h : BasicOp.ofBits (opField w) = some op) :
    decodeHead w = .basic op (aField w) (bField w) := by
  simp only [decodeHead, h]

/-- The basic format (R40). -/
theorem decodeHead_of_opField_ne_zero {w : Word} (h : opField w ≠ 0) :
    ∃ op, op.bits = opField w ∧ decodeHead w = .basic op (aField w) (bField w) := by
  obtain ⟨op, hop, hbits⟩ := exists_ofBits h
  exact ⟨op, hbits, decodeHead_of_ofBits hop⟩

/-- The extended format (R41, R49). -/
theorem decodeHead_of_opField_eq_zero {w : Word} (h : opField w = 0) :
    decodeHead w = if aField w = jsrExt then .jsr (bField w) else .unassigned (aField w) (bField w) := by
  have unmapped : BasicOp.ofBits (opField w) = none := by rw [h]; rfl
  simp only [decodeHead, unmapped]

theorem decodeHead_append_bits (cb ca : BitVec 6) (op : BasicOp) :
    decodeHead (cb ++ ca ++ op.bits) = .basic op ca cb := by
  have mapped : BasicOp.ofBits (opField (cb ++ ca ++ op.bits)) = some op := by rw [opField_append, ofBits_bits]
  rw [decodeHead_of_ofBits mapped, aField_append, bField_append]

theorem opField_eq_zero_iff (w : Word) : opField w = 0 ↔ w.toNat % 16 = 0 := by
  rw [← BitVec.toNat_inj, opField_toNat]
  rfl

/-- A basic word whose operands are there decodes to its instruction, a from `ca` and b from `cb` (R40, R45). -/
theorem decode_of_basic {w : Word} {op : BasicOp} {ca cb : BitVec 6} {ws wsb rest : List Word} {a b : Operand}
    (hw : decodeHead w = .basic op ca cb) (ha : takeOperand ca ws = some (a, wsb))
    (hb : takeOperand cb wsb = some (b, rest)) : decode (w :: ws) = .ok (op.instr a b) rest := by
  simp only [decode, hw, ha, hb]

/-- Settles O4: the fields are quotients and remainders of the word, and a nonzero `op` is mapped to a basic opcode. -/
theorem basicWordFields : Obligations.BasicWordFields := by
  unfold Obligations.BasicWordFields
  refine fun w => ⟨opField_toNat w, aField_toNat w, bField_toNat w, toNat_eq_fields w, fun hop => ?_⟩
  obtain ⟨op, hbits, hhead⟩ := decodeHead_of_opField_ne_zero hop
  exact ⟨op, hbits, hhead, fun _ _ _ _ _ ha hb => decode_of_basic hhead ha hb⟩

/-! ## The key -/

theorem key_basic_toNat (op : BasicOp) (ca cb : BitVec 6) : (Head.basic op ca cb).key.toNat = op.bits.toNat :=
  BitVec.toNat_setWidth_of_le (by decide)

/-- JSR and the unassigned opcodes have one formula for their key (R47). -/
theorem key_of_opField_eq_zero {w : Word} (h : opField w = 0) : (decodeHead w).key = extKey (aField w) := by
  rw [decodeHead_of_opField_eq_zero h]
  split
  · next isJsr => rw [isJsr]; rfl
  · rfl

theorem key_toNat_of_opField_ne_zero {w : Word} (h : opField w ≠ 0) : (decodeHead w).key.toNat = (opField w).toNat := by
  obtain ⟨op, hbits, hhead⟩ := decodeHead_of_opField_ne_zero h
  rw [hhead, key_basic_toNat, hbits]

theorem extKey_aField (w : Word) : extKey (aField w) = 0xFF00 ||| BitVec.ofNat 16 (w.toNat / 16 % 64) := by
  rw [extKey, ← BitVec.ofNat_toNat, aField_toNat]
  rfl

/-- Extended keys lie from 0xFF00 to 0xFF3F (R47). -/
theorem extKey_range (ext : BitVec 6) : 0xFF00 ≤ (extKey ext).toNat ∧ (extKey ext).toNat ≤ 0xFF3F := by
  have := ext.isLt
  rw [Machine.extKey_toNat]
  omega

/-- Settles O6: by the format that `op` selects, the key is `op` or the extended key of `w[9:4]`. -/
theorem keyOfInstructionWord : Obligations.KeyOfInstructionWord := by
  unfold Obligations.KeyOfInstructionWord
  intro w
  have extended : w.toNat % 16 = 0 → (decodeHead w).key = extKey (aField w) :=
    fun hop => key_of_opField_eq_zero ((opField_eq_zero_iff w).mpr hop)
  refine ⟨fun hop => ?_, fun hop => (extended hop).trans (extKey_aField w), fun hop => ?_⟩
  · exact (key_toNat_of_opField_ne_zero (mt (opField_eq_zero_iff w).mp hop)).trans (opField_toNat w)
  · rw [extended hop]
    exact extKey_range _

/-! ## The opcode map with its costs -/

theorem encode_instr (op : BasicOp) (a b : Operand) : encode (op.instr a b) = encodeBasic op.bits a b := by
  cases op <;> rfl

/-- The basic opcodes in the order of their values, 0x1 to 0xF (R48). -/
def basicOpcodes : List BasicOp :=
  [.set, .add, .sub, .mul, .div, .mod, .shl, .shr, .and, .bor, .xor, .ife, .ifn, .ifg, .ifb]

theorem mem_basicOpcodes (op : BasicOp) : op ∈ basicOpcodes := by cases op <;> decide

/-- The row of the opcode table for a basic opcode: its value, its instruction and its cost (R48). -/
def opcodeRow (a b : Operand) (op : BasicOp) : Nat × Instr × Nat :=
  (op.bits.toNat, op.instr a b, Machine.cost (op.instr a b))

theorem opcodeRow_mem (a b : Operand) (op : BasicOp) : opcodeRow a b op ∈ basicOpcodes.map (opcodeRow a b) :=
  List.mem_map_of_mem (mem_basicOpcodes op)

/-- Settles O7: the word is `encodeBasic`'s, its key by `decodeHead_append_bits`, and the table is the list of the rows of the
basic opcodes. -/
theorem basicOpcodeMapAndCosts : Obligations.BasicOpcodeMapAndCosts := by
  unfold Obligations.BasicOpcodeMapAndCosts
  refine ⟨fun op hop => ?_, fun a b op => ⟨extWords a ++ extWords b, encode_instr op a b, ?_, opcodeRow_mem a b op⟩⟩
  · obtain ⟨o, ho, -⟩ := exists_ofBits hop
    exact Option.isSome_of_eq_some ho
  · rw [decodeHead_append_bits, key_basic_toNat]

/-! ## Literals and addresses -/

/-- The codes 0x20 to 0x3F are the short literals (R42). -/
theorem operandOf_short (c : BitVec 6) (n : Word) (h : 0x20 ≤ c.toNat) : operandOf c n = .short (c.toNat - 0x20) := by
  simp only [operandOf]
  repeat rw [if_neg (by omega)]

/-- The codes 0x10 to 0x17 are the indexed operands (R42). -/
theorem operandOf_idx (c : BitVec 6) (n : Word) (hlo : 0x10 ≤ c.toNat) (hhi : c.toNat ≤ 0x17) :
    operandOf c n = .idx (gregOf (c.toNat - 0x10)) n := by
  have code : BitVec.ofNat 6 (0x10 + (c.toNat - 0x10)) = c := by
    rw [Nat.add_sub_cancel' hlo, BitVec.ofNat_toNat, BitVec.setWidth_eq]
  obtain ⟨-, -, hidx⟩ := Machine.operandOf_gregCode (c.toNat - 0x10) n (by omega)
  rwa [code] at hidx

/-- A short literal is the code minus 0x20, with no sign: 0 to 31 (R43). -/
theorem resolve_short_toNat (c : BitVec 6) (n : Word) (s : Machine.State) (h : 0x20 ≤ c.toNat) :
    ∃ v : Word, Machine.resolve (operandOf c n) s = .lit v ∧ v.toNat + 0x20 = c.toNat ∧ v.toNat ≤ 31 := by
  have hc := c.isLt
  have value : (wrapNat (c.toNat - 0x20)).toNat = c.toNat - 0x20 := Nat.mod_eq_of_lt (by omega)
  refine ⟨wrapNat (c.toNat - 0x20), ?_, by omega, by omega⟩
  rw [operandOf_short c n h]
  rfl

/-- An address that is a sum modulo 0x10000 with `0x10000 - k` is the difference (R43: negative offsets). -/
theorem eq_sub_of_toNat_eq_add {addr r n k : Word} (haddr : addr.toNat = (r.toNat + n.toNat) % 0x10000)
    (hn : n.toNat = 0x10000 - k.toNat) : addr = r - k := by
  apply BitVec.eq_of_toNat_eq
  rw [haddr, hn, BitVec.toNat_sub, Nat.add_comm]

/-- Settles O10: each code's operand, then the handle `resolve` makes of it. -/
theorem immediateAssembly : Obligations.ImmediateAssembly := by
  unfold Obligations.ImmediateAssembly
  refine fun c n s => ⟨resolve_short_toNat c n s, rfl, rfl, fun ⟨hlo, hhi⟩ => ?_⟩
  obtain ⟨addr, hres, haddr⟩ := Machine.resolve_idx_toNat (gregOf (c.toNat - 0x10)) n s
  rw [operandOf_idx c n hlo hhi]
  exact ⟨_, addr, rfl, hres, haddr, fun k _ hn => eq_sub_of_toNat_eq_add haddr hn⟩

end Sys2Proof

/-! PROOFS. R54, R57, R59, R60 and R63, the operands of an execution: the fetch and the words it takes, the stack primitives,
the handle each operand code resolves to, and the handles of memory addresses and literals. -/

namespace Sys2Proof.Machine

/-! ## Fetch -/

theorem fetch_getReg_ne (s : State) (r : Reg) (h : r ≠ .pc) : s.fetch.2.getReg r = s.getReg r :=
  State.getReg_setReg_ne s .pc r _ h

theorem fetch_greg (s : State) (g : GReg) : s.fetch.2.getReg g.toReg = s.getReg g.toReg :=
  fetch_getReg_ne s g.toReg (GReg.toReg_ne_pc g)

theorem fetchOperand_of_takesWord {c : BitVec 6} (hc : takesWord c = true) (s : State) :
    fetchOperand c s = (operandOf c s.fetch.1, s.fetch.2.tick 1) := if_pos hc

theorem fetchOperand_of_not_takesWord {c : BitVec 6} (hc : takesWord c = false) (s : State) :
    fetchOperand c s = (operandOf c 0, s) := if_neg (ne_true_of_eq_false hc)

theorem fetchInstr_of_basic {s : State} {op : BasicOp} {ca cb : BitVec 6}
    (h : decodeHead s.fetch.1 = .basic op ca cb) : ∃ a b, (fetchInstr s).1 = .instr (op.instr a b) := by
  unfold fetchInstr
  rw [h]
  exact ⟨_, _, rfl⟩

theorem fetchInstr_of_jsr {s : State} {c : BitVec 6} (h : decodeHead s.fetch.1 = .jsr c) :
    ∃ a, (fetchInstr s).1 = .instr (.jsr a) := by
  unfold fetchInstr
  rw [h]
  exact ⟨_, rfl⟩

theorem fetchInstr_of_unassignedHead {s : State} {ext c : BitVec 6} (h : decodeHead s.fetch.1 = .unassigned ext c) :
    ∃ a, (fetchInstr s).1 = .unassigned ext a := by
  unfold fetchInstr
  rw [h]
  exact ⟨_, rfl⟩

/-- Settles O14: a fetch is a write of PC only, and `fetchOperand` and `fetchInstr` take their words by it. -/
theorem fetchReadsAndAdvancesPc : Obligations.FetchReadsAndAdvancesPc := by
  unfold Obligations.FetchReadsAndAdvancesPc
  exact fun s => ⟨rfl, fetch_pc_toNat s, fetch_getReg_ne s, rfl, rfl, rfl, rfl,
    fun _ hc => fetchOperand_of_takesWord hc s, fun _ _ _ => fetchInstr_of_basic, fun _ => fetchInstr_of_jsr,
    fun _ _ => fetchInstr_of_unassignedHead⟩

/-! ## Push and Pop -/

theorem push_sp (s : State) (v : Word) : (s.push v).getReg .sp = s.pushAddress :=
  State.getReg_setReg_self s .sp s.pushAddress

theorem push_getReg_ne (s : State) (v : Word) (r : Reg) (h : r ≠ .sp) : (s.push v).getReg r = s.getReg r :=
  State.getReg_setReg_ne s .sp r _ h

theorem push_readWord (s : State) (v k : Word) :
    (s.push v).readWord k = if k = s.pushAddress then v else s.readWord k := by
  rw [State.push_eq, State.readWord_writeWord, State.readWord_setReg]
  rfl

theorem pop_push_value (s : State) (v : Word) : (s.push v).pop.1 = v := by
  rw [State.pop_value, push_sp, push_readWord, if_pos rfl]

theorem pop_push_sp (s : State) (v : Word) : (s.push v).pop.2.getReg .sp = s.getReg .sp := by
  rw [State.pop_state, State.getReg_setReg_self, push_sp]
  exact BitVec.sub_add_cancel _ _

/-- Settles O15: a push writes SP and the word at `pushAddress`, a pop writes SP only, and the pop reads where the push wrote. -/
theorem stackPrimitives : Obligations.StackPrimitives := by
  unfold Obligations.StackPrimitives
  refine fun s v => ⟨?_, push_getReg_ne s v, push_readWord s v, rfl, pop_sp_toNat s,
    fun r hr => State.getReg_setReg_ne s .sp r _ hr, rfl, pop_push_value s v, pop_push_sp s v⟩
  rw [push_sp]
  exact pushAddress_toNat s

/-! ## Resolve, by the operand code -/

/-- A code as its offset in the block of codes that begins at `lo`. -/
theorem code_eq_ofNat_add (c : BitVec 6) {lo : Nat} (h : lo ≤ c.toNat) : c = BitVec.ofNat 6 (lo + (c.toNat - lo)) := by
  rw [Nat.add_sub_cancel' h, BitVec.ofNat_toNat, BitVec.setWidth_eq]

/-- The codes 0x00 to 0x07 are the general registers (R42). -/
theorem operandOf_reg (c : BitVec 6) (n : Word) (h : c.toNat ≤ 0x07) : operandOf c n = .reg (gregOf c.toNat).toReg := if_pos h

/-- The codes 0x08 to 0x0F are the words that the general registers address (R42). -/
theorem operandOf_ind (c : BitVec 6) (n : Word) (hlo : 0x08 ≤ c.toNat) (hhi : c.toNat ≤ 0x0F) :
    operandOf c n = .ind (gregOf (c.toNat - 0x08)) := by
  obtain ⟨-, hind, -⟩ := operandOf_gregCode (c.toNat - 0x08) n (by omega)
  rwa [← code_eq_ofNat_add c hlo] at hind

/-- `e(c)` as a set of codes (R44). -/
theorem takesWord_iff (c : BitVec 6) :
    takesWord c = true ↔ (0x10 ≤ c.toNat ∧ c.toNat ≤ 0x17) ∨ c.toNat = 0x1E ∨ c.toNat = 0x1F := by
  simp only [takesWord, Bool.or_eq_true, decide_eq_true_eq, or_assoc]

theorem takesWord_eq_false_iff (c : BitVec 6) :
    takesWord c = false ↔ c.toNat < 0x10 ∨ (0x17 < c.toNat ∧ c.toNat < 0x1E) ∨ 0x1F < c.toNat := by
  rw [← Bool.not_eq_true, takesWord_iff]
  omega

/-- R57 where the code takes a word: the operand's register reads alike before and after the fetch of that word. -/
theorem resolve_withWord {c : BitVec 6} {a : Operand} (s : State) (hc : takesWord c = true)
    (ha : operandOf c s.fetch.1 = a) :
    resolve (fetchOperand c s).1 (fetchOperand c s).2 = resolve a s ∧ (fetchOperand c s).2 = s.fetch.2.tick 1 := by
  rw [fetchOperand_of_takesWord hc, ha]
  exact ⟨resolve_congr a (fetch_greg s), rfl⟩

/-- R57 where the code takes no word: the state is not changed. -/
theorem resolve_noWord {c : BitVec 6} {a : Operand} (s : State) (hc : takesWord c = false)
    (ha : operandOf c 0 = a) :
    resolve (fetchOperand c s).1 (fetchOperand c s).2 = resolve a s ∧ (fetchOperand c s).2 = s := by
  rw [fetchOperand_of_not_takesWord hc, ha]
  exact ⟨rfl, rfl⟩

/-- Settles O9: for each range, which operand the code is, and by `resolve_withWord` or `resolve_noWord` whether the state has
fetched a word for it. -/
theorem resolveByOperandCode : Obligations.ResolveByOperandCode := by
  unfold Obligations.ResolveByOperandCode
  intro c s
  refine ⟨fun h => ?_, fun ⟨hlo, hhi⟩ => ?_, fun ⟨hlo, hhi⟩ => ?_, fun h => ?_, fun h => ?_, fun h => ?_, fun h => ?_,
    fun h => ?_, fun h => ?_, fun h => ?_, fun h => ?_, rfl, fetch_greg s⟩
  · exact resolve_noWord s ((takesWord_eq_false_iff c).mpr (by omega)) (operandOf_reg c 0 h)
  · exact resolve_noWord s ((takesWord_eq_false_iff c).mpr (by omega)) (operandOf_ind c 0 hlo hhi)
  · exact resolve_withWord s ((takesWord_iff c).mpr (by omega)) (operandOf_idx c _ hlo hhi)
  · obtain h | h := h
    · obtain rfl : c = 0x18 := BitVec.eq_of_toNat_eq h
      exact resolve_noWord s rfl rfl
    · obtain rfl : c = 0x1A := BitVec.eq_of_toNat_eq h
      exact resolve_noWord s rfl rfl
  · obtain rfl : c = 0x19 := BitVec.eq_of_toNat_eq h
    exact resolve_noWord s rfl rfl
  · obtain rfl : c = 0x1B := BitVec.eq_of_toNat_eq h
    exact resolve_noWord s rfl rfl
  · obtain rfl : c = 0x1C := BitVec.eq_of_toNat_eq h
    exact resolve_noWord s rfl rfl
  · obtain rfl : c = 0x1D := BitVec.eq_of_toNat_eq h
    exact resolve_noWord s rfl rfl
  · obtain rfl : c = 0x1E := BitVec.eq_of_toNat_eq h
    exact resolve_withWord s rfl rfl
  · obtain rfl : c = 0x1F := BitVec.eq_of_toNat_eq h
    exact resolve_withWord s rfl rfl
  · exact resolve_noWord s ((takesWord_eq_false_iff c).mpr (by omega)) (operandOf_short c 0 h)

/-! ## Memory-address and literal handles -/

theorem resolve_short (c : BitVec 6) (n : Word) (s : State) (h : 0x20 ≤ c.toNat) :
    resolve (operandOf c n) s = .lit (BitVec.ofNat 16 (c.toNat - 0x20)) := by
  rw [operandOf_short c n h]
  rfl

/-- A memory-address handle reads its own address, whatever is written to a register after it was resolved (R59). -/
theorem get_mem_setReg_value (s : State) (addr : Word) (r : Reg) (w : Word) :
    ((Handle.mem addr).get (s.setReg r w)).value = s.readWord addr := State.readWord_setReg s r w addr

/-- Settles O17: the handle holds its address or its number and nothing else. -/
theorem memoryAndLiteralHandles : Obligations.MemoryAndLiteralHandles := by
  unfold Obligations.MemoryAndLiteralHandles
  exact fun s addr n v r w => ⟨rfl, rfl, get_mem_setReg_value s addr r w, fun _ => rfl, rfl,
    fun c hc => resolve_short c n s hc, rfl, rfl⟩

end Sys2Proof.Machine

/-! PROOFS. R40 to R50, the decoder and the encoder: each undoes the other, which words the decoder rejects, and the extended
format. -/

namespace Sys2Proof

/-! ## The two formats of an instruction -/

/-- The instructions are those of the two formats (R40, R41). -/
theorem instr_basic_or_jsr (i : Instr) : (∃ (op : BasicOp) (a b : Operand), i = op.instr a b) ∨ ∃ a, i = .jsr a := by
  cases i with
  | set a b => exact .inl ⟨.set, a, b, rfl⟩
  | add a b => exact .inl ⟨.add, a, b, rfl⟩
  | sub a b => exact .inl ⟨.sub, a, b, rfl⟩
  | mul a b => exact .inl ⟨.mul, a, b, rfl⟩
  | div a b => exact .inl ⟨.div, a, b, rfl⟩
  | mod a b => exact .inl ⟨.mod, a, b, rfl⟩
  | shl a b => exact .inl ⟨.shl, a, b, rfl⟩
  | shr a b => exact .inl ⟨.shr, a, b, rfl⟩
  | and a b => exact .inl ⟨.and, a, b, rfl⟩
  | bor a b => exact .inl ⟨.bor, a, b, rfl⟩
  | xor a b => exact .inl ⟨.xor, a, b, rfl⟩
  | ife a b => exact .inl ⟨.ife, a, b, rfl⟩
  | ifn a b => exact .inl ⟨.ifn, a, b, rfl⟩
  | ifg a b => exact .inl ⟨.ifg, a, b, rfl⟩
  | ifb a b => exact .inl ⟨.ifb, a, b, rfl⟩
  | jsr a => exact .inr ⟨a, rfl⟩

theorem wf_instr (op : BasicOp) (a b : Operand) : (op.instr a b).wf = true ↔ a.wf = true ∧ b.wf = true := by
  rw [← Bool.and_eq_true]
  cases op <;> rfl

/-! ## The decoder by the head of the word -/

theorem decode_of_jsr {w : Word} {c : BitVec 6} {ws rest : List Word} {a : Operand} (hw : decodeHead w = .jsr c)
    (ha : takeOperand c ws = some (a, rest)) : decode (w :: ws) = .ok (.jsr a) rest := by
  simp only [decode, hw, ha]

theorem decode_of_unassigned {w : Word} {ext c : BitVec 6} {ws rest : List Word} {a : Operand}
    (hw : decodeHead w = .unassigned ext c) (ha : takeOperand c ws = some (a, rest)) :
    decode (w :: ws) = .unassigned ext a rest := by
  simp only [decode, hw, ha]

/-- The decoder inverted: what it read of the list to answer an instruction (R44, R45). -/
theorem decode_eq_ok {ws rest : List Word} {i : Instr} (h : decode ws = .ok i rest) :
    ∃ w ws', ws = w :: ws' ∧
      ((∃ op ca cb a b wsb, decodeHead w = .basic op ca cb ∧ takeOperand ca ws' = some (a, wsb) ∧
          takeOperand cb wsb = some (b, rest) ∧ i = op.instr a b) ∨
       (∃ c a, decodeHead w = .jsr c ∧ takeOperand c ws' = some (a, rest) ∧ i = .jsr a)) := by
  cases ws with
  | nil => cases h
  | cons w ws' =>
    refine ⟨w, ws', rfl, ?_⟩
    simp only [decode] at h
    split at h
    · next op ca cb hw =>
      split at h
      · cases h
      · next a wsb ha =>
        split at h
        · cases h
        · next b _ hb =>
          cases h
          exact .inl ⟨op, ca, cb, a, b, wsb, hw, ha, hb, rfl⟩
    · next c hw =>
      split at h
      · cases h
      · next a _ ha =>
        cases h
        exact .inr ⟨c, a, hw, ha, rfl⟩
    · split at h <;> cases h

/-! ## Decoding an encoding -/

theorem decode_encodeBasic (op : BasicOp) {a b : Operand} (rest : List Word) (ha : a.wf = true) (hb : b.wf = true) :
    decode (encodeBasic op.bits a b ++ rest) = .ok (op.instr a b) rest := by
  rw [encodeBasic, List.cons_append, List.append_assoc]
  exact decode_of_basic (decodeHead_append_bits _ _ op) (takeOperand_operandCode a _ ha) (takeOperand_operandCode b rest hb)

theorem decodeHead_extendedWord_jsr (a : Operand) : decodeHead (extendedWord jsrExt a) = .jsr (operandCode a) := by
  have format : opField (extendedWord jsrExt a) = 0 := opField_append _ _ _
  rw [decodeHead_of_opField_eq_zero format, extendedWord, aField_append, bField_append, if_pos rfl]

/-- Settles O1: the head of the encoded word, then the operands' words by `takeOperand_operandCode`, for each format. -/
theorem decodeOfEncodeIsTheInstruction : Obligations.DecodeOfEncodeIsTheInstruction := by
  unfold Obligations.DecodeOfEncodeIsTheInstruction
  intro i rest hwf
  obtain ⟨op, a, b, rfl⟩ | ⟨a, rfl⟩ := instr_basic_or_jsr i
  · obtain ⟨ha, hb⟩ := (wf_instr op a b).mp hwf
    rw [encode_instr]
    exact decode_encodeBasic op rest ha hb
  · exact decode_of_jsr (decodeHead_extendedWord_jsr a) (takeOperand_operandCode a rest hwf)

/-! ## Encoding what was decoded -/

/-- An operand taken from a list is well formed, has the code it was taken for, and took its own words (R42, R44). -/
theorem takeOperand_eq_some {c : BitVec 6} {ws rest : List Word} {a : Operand} (h : takeOperand c ws = some (a, rest)) :
    a.wf = true ∧ operandCode a = c ∧ ws = extWords a ++ rest := by
  have spec := operandOf_spec c
  cases hc : takesWord c <;> simp only [hc, if_true, if_false, Bool.false_eq_true] at spec
  case false =>
    obtain ⟨hwf, hcode, hext⟩ := spec 0
    have taken : a = operandOf c 0 ∧ ws = rest := by cases ws <;> simp_all [takeOperand]
    obtain ⟨rfl, rfl⟩ := taken
    exact ⟨hwf, hcode, by rw [hext, List.nil_append]⟩
  case true =>
    cases ws with
    | nil => simp [takeOperand, hc] at h
    | cons n ws =>
      obtain ⟨hwf, hcode, hext⟩ := spec n
      obtain ⟨rfl, rfl⟩ : operandOf c n = a ∧ ws = rest := by simpa [takeOperand, hc] using h
      exact ⟨hwf, hcode, by rw [hext, List.singleton_append]⟩

theorem eq_append_fields (w : Word) : w = bField w ++ aField w ++ opField w :=
  BitVec.eq_of_toNat_eq (by rw [append_toNat, ← toNat_eq_fields])

/-- No bit of a basic word is ignored (R40, R50). -/
theorem eq_of_decodeHead_basic {w : Word} {op : BasicOp} {ca cb : BitVec 6} (h : decodeHead w = .basic op ca cb) :
    w = cb ++ ca ++ op.bits := by
  by_cases hop : opField w = 0
  · rw [decodeHead_of_opField_eq_zero hop] at h
    split at h <;> cases h
  · obtain ⟨op', hbits, hhead⟩ := decodeHead_of_opField_ne_zero hop
    obtain ⟨rfl, rfl, rfl⟩ := Head.basic.inj (hhead.symm.trans h)
    rw [hbits]
    exact eq_append_fields w

/-- No bit of a JSR word is ignored (R41, R50). -/
theorem eq_of_decodeHead_jsr {w : Word} {c : BitVec 6} (h : decodeHead w = .jsr c) :
    w = c ++ jsrExt ++ (0 : BitVec 4) := by
  by_cases hop : opField w = 0
  · rw [decodeHead_of_opField_eq_zero hop] at h
    split at h
    · next isJsr =>
      obtain rfl := Head.jsr.inj h
      rw [← isJsr, ← hop]
      exact eq_append_fields w
    · cases h
  · obtain ⟨op, -, hhead⟩ := decodeHead_of_opField_ne_zero hop
    rw [hhead] at h
    cases h

/-- Settles O2: the word is put together from its head, and each operand's words are its own by `takeOperand_eq_some`. -/
theorem decodedWordsAreTheEncoding : Obligations.DecodedWordsAreTheEncoding := by
  unfold Obligations.DecodedWordsAreTheEncoding
  intro ws rest i h
  obtain ⟨w, ws', rfl, ⟨op, ca, cb, a, b, wsb, hw, ha, hb, rfl⟩ | ⟨c, a, hw, ha, rfl⟩⟩ := decode_eq_ok h
  · obtain ⟨hwfa, rfl, rfl⟩ := takeOperand_eq_some ha
    obtain ⟨hwfb, rfl, rfl⟩ := takeOperand_eq_some hb
    refine ⟨(wf_instr op a b).mpr ⟨hwfa, hwfb⟩, ?_⟩
    rw [encode_instr, encodeBasic, basicWord, List.cons_append, List.append_assoc, ← eq_of_decodeHead_basic hw]
  · obtain ⟨hwfa, rfl, rfl⟩ := takeOperand_eq_some ha
    refine ⟨hwfa, ?_⟩
    rw [encode, extendedWord, List.cons_append, ← eq_of_decodeHead_jsr hw]

/-! ## Which words are rejected -/

/-- With two words after it, an operand always finds its word and leaves at least one. -/
theorem takeOperand_cons_cons (c : BitVec 6) (e1 e2 : Word) (rest : List Word) :
    ∃ a n ws, takeOperand c (e1 :: e2 :: rest) = some (a, n :: ws) := by
  rw [Machine.takeOperand_cons]
  split
  · exact ⟨_, _, _, rfl⟩
  · exact ⟨_, _, _, rfl⟩

/-- A word with an unassigned extended opcode (R49, R50). -/
def IsUnassignedWord (w : Word) : Prop := opField w = 0 ∧ aField w ≠ jsrExt

theorem isUnassignedWord_iff (w : Word) : IsUnassignedWord w ↔ w.toNat % 16 = 0 ∧ w.toNat / 16 % 64 ≠ 1 := by
  rw [IsUnassignedWord, opField_eq_zero_iff, Ne, ← BitVec.toNat_inj, aField_toNat]
  rfl

theorem decode_ok_of_not_isUnassignedWord {w : Word} (h : ¬IsUnassignedWord w) (e1 e2 : Word) (rest : List Word) :
    ∃ i r, decode (w :: e1 :: e2 :: rest) = .ok i r := by
  by_cases hop : opField w = 0
  · have isJsr : aField w = jsrExt := not_not.mp (fun hj => h ⟨hop, hj⟩)
    have hhead : decodeHead w = .jsr (bField w) := by rw [decodeHead_of_opField_eq_zero hop, if_pos isJsr]
    exact ⟨_, _, decode_of_jsr hhead (Machine.takeOperand_cons _ _ _)⟩
  · obtain ⟨op, -, hhead⟩ := decodeHead_of_opField_ne_zero hop
    obtain ⟨a, n, ws, ha⟩ := takeOperand_cons_cons (aField w) e1 e2 rest
    exact ⟨_, _, decode_of_basic hhead ha (Machine.takeOperand_cons _ _ _)⟩

theorem decode_unassigned_of_isUnassignedWord {w : Word} (h : IsUnassignedWord w) (e : Word) (rest : List Word) :
    ∃ a r, decode (w :: e :: rest) = .unassigned (aField w) a r := by
  obtain ⟨hop, hj⟩ := h
  have hhead : decodeHead w = .unassigned (aField w) (bField w) := by rw [decodeHead_of_opField_eq_zero hop, if_neg hj]
  exact ⟨_, _, decode_of_unassigned hhead (Machine.takeOperand_cons _ _ _)⟩

/-- Settles O3: the two answers of the decoder exclude each other, so the two implications on `IsUnassignedWord` are equivalences. -/
theorem onlyUnassignedExtendedWordsAreRejected : Obligations.OnlyUnassignedExtendedWordsAreRejected := by
  unfold Obligations.OnlyUnassignedExtendedWordsAreRejected
  intro w e1 e2 rest
  rw [← isUnassignedWord_iff]
  refine ⟨⟨fun ⟨i, r, hok⟩ hu => ?_, fun hu => decode_ok_of_not_isUnassignedWord hu e1 e2 rest⟩,
    ⟨fun ⟨ext, a, r, hrej, _⟩ => ?_, fun hu => ?_⟩⟩
  · obtain ⟨a, r', hrej⟩ := decode_unassigned_of_isUnassignedWord hu e1 (e2 :: rest)
    cases hok.symm.trans hrej
  · by_contra hu
    obtain ⟨i, r', hok⟩ := decode_ok_of_not_isUnassignedWord hu e1 e2 rest
    cases hok.symm.trans hrej
  · obtain ⟨a, r, hrej⟩ := decode_unassigned_of_isUnassignedWord hu e1 (e2 :: rest)
    exact ⟨_, a, r, hrej, aField_toNat w⟩

/-! ## The extended format -/

/-- Settles O5: `op` adds nothing to the word, and by its head it is JSR or unassigned with the operand of `w[15:10]` alone. -/
theorem extendedWordFields : Obligations.ExtendedWordFields := by
  unfold Obligations.ExtendedWordFields
  intro w ws hw
  have hop : opField w = 0 := (opField_eq_zero_iff w).mpr hw
  have hhead := decodeHead_of_opField_eq_zero hop
  refine ⟨by simpa [hop] using toNat_eq_fields w, ?_, ?_⟩
  · rw [hhead]
    split
    · exact .inl rfl
    · exact .inr rfl
  · by_cases hj : aField w = 1
    · have isJsr : decodeHead w = .jsr (bField w) := hhead.trans (if_pos hj)
      cases ha : takeOperand (bField w) ws <;> simp only [decode, isJsr, ha, if_pos hj]
    · have isUnassigned : decodeHead w = .unassigned (aField w) (bField w) := hhead.trans (if_neg hj)
      cases ha : takeOperand (bField w) ws <;> simp only [decode, isUnassigned, ha, if_neg hj]

/-- Settles O8: the decoder evaluated on each list. -/
theorem specWordsDecode : Obligations.SpecWordsDecode := by
  unfold Obligations.SpecWordsDecode
  decide

end Sys2Proof

/-! PROOFS. R25 and R33, the memory: a memory in canonical form is what it reads, and what a load of words leaves in it. -/

namespace Sys2Proof.Machine

/-! ## Canonical memories that read alike -/

theorem cellsWf_cons {lo a : Nat} {v : Word} {rest : List (Nat × Word)} (h : cellsWf lo ((a, v) :: rest) = true) :
    lo ≤ a ∧ a < Config.memWords ∧ v ≠ Memory.unlisted ∧ cellsWf (a + 1) rest = true := by
  simpa [cellsWf, and_assoc] using h

theorem cellsRead_cons_self (a : Nat) (v : Word) (rest : List (Nat × Word)) : cellsRead ((a, v) :: rest) a = v := if_pos rfl

theorem cellsRead_cons_ne {a k : Nat} (v : Word) (rest : List (Nat × Word)) (h : a ≠ k) :
    cellsRead ((a, v) :: rest) k = cellsRead rest k := if_neg h

/-- An address below the canonical cells, or past the array, is not listed. -/
theorem cellsRead_outside {k : Nat} : ∀ {lo : Nat} {c : List (Nat × Word)}, cellsWf lo c = true →
    k < lo ∨ Config.memWords ≤ k → cellsRead c k = Memory.unlisted
  | _, [], _, _ => rfl
  | lo, (a, v) :: rest, hc, hk => by
    obtain ⟨hlo, ha, -, hrest⟩ := cellsWf_cons hc
    rw [cellsRead_cons_ne v rest (by omega)]
    exact cellsRead_outside hrest (by omega)

/-- A cell of one canonical list is not below the first cell of another that reads alike. -/
theorem le_of_cellsRead_eq {lo lo' a a' : Nat} {v v' : Word} {r r' : List (Nat × Word)}
    (hc : cellsWf lo ((a, v) :: r) = true) (hc' : cellsWf lo' ((a', v') :: r') = true)
    (h : cellsRead ((a, v) :: r) a = cellsRead ((a', v') :: r') a) : a' ≤ a := by
  obtain ⟨-, -, hv, -⟩ := cellsWf_cons hc
  obtain ⟨-, -, -, hrest'⟩ := cellsWf_cons hc'
  by_contra hlt
  rw [cellsRead_cons_self, cellsRead_cons_ne v' r' (by omega), cellsRead_outside hrest' (by omega)] at h
  exact hv h

theorem cells_eq_of_read_eq : ∀ {lo : Nat} {c c' : List (Nat × Word)}, cellsWf lo c = true → cellsWf lo c' = true →
    (∀ k, cellsRead c k = cellsRead c' k) → c = c'
  | _, [], [], _, _, _ => rfl
  | _, [], (a, v) :: rest, _, hc', h => by
    obtain ⟨-, -, hv, -⟩ := cellsWf_cons hc'
    exact absurd ((cellsRead_cons_self a v rest).symm.trans (h a).symm) hv
  | _, (a, v) :: rest, [], hc, _, h => by
    obtain ⟨-, -, hv, -⟩ := cellsWf_cons hc
    exact absurd ((cellsRead_cons_self a v rest).symm.trans (h a)) hv
  | lo, (a, v) :: rest, (a', v') :: rest', hc, hc', h => by
    obtain rfl : a = a' := Nat.le_antisymm (le_of_cellsRead_eq hc' hc (h a').symm) (le_of_cellsRead_eq hc hc' (h a))
    obtain rfl : v = v' := by simpa only [cellsRead_cons_self] using h a
    obtain ⟨-, -, -, hrest⟩ := cellsWf_cons hc
    obtain ⟨-, -, -, hrest'⟩ := cellsWf_cons hc'
    have tails : ∀ k, cellsRead rest k = cellsRead rest' k := fun k => by
      by_cases hk : a = k
      · rw [cellsRead_outside hrest (by omega), cellsRead_outside hrest' (by omega)]
      · simpa only [cellsRead_cons_ne v _ hk] using h k
    rw [cells_eq_of_read_eq hrest hrest' tails]

theorem Memory.read_of_lt (m : Memory) {k : Nat} (h : k < Config.memWords) : m.read k = cellsRead m.cells k := by
  rw [Memory.read, Nat.mod_eq_of_lt h]

/-- Settles O13: past the array both lists read the unlisted value, and canonical lists of cells that read alike are equal. -/
theorem canonicalMemoriesThatReadAlikeAreEqual : Obligations.CanonicalMemoriesThatReadAlikeAreEqual := by
  unfold Obligations.CanonicalMemoriesThatReadAlikeAreEqual
  intro m m' hm hm' h
  have alike : ∀ k, cellsRead m.cells k = cellsRead m'.cells k := fun k => by
    by_cases hk : k < Config.memWords
    · rw [← m.read_of_lt hk, ← m'.read_of_lt hk, h k hk]
    · rw [cellsRead_outside hm (.inr (by omega)), cellsRead_outside hm' (.inr (by omega))]
  exact congrArg Memory.mk (cells_eq_of_read_eq hm hm' alike)

/-! ## The load of words -/

theorem Memory.read_write_same (m : Memory) (n : Nat) (v : Word) : (m.write n v).read n = v := by
  rw [Memory.read_write, if_pos rfl]

theorem Memory.read_write_ne (m : Memory) {n k : Nat} (v : Word) (h : n % Config.memWords ≠ k % Config.memWords) :
    (m.write n v).read k = m.read k := by
  rw [Memory.read_write, if_neg h.symm]

/-- A store of words leaves alone every offset that none of them goes to (R33). -/
theorem Memory.read_storeFrom_ne (ws : List Word) (k : Nat) : ∀ (m : Memory) (n : Nat),
    (∀ i, i < ws.length → (n + i) % Config.memWords ≠ k % Config.memWords) → (m.storeFrom n ws).read k = m.read k := by
  induction ws with
  | nil => exact fun _ _ _ => rfl
  | cons w ws ih =>
    intro m n h
    have tail : ∀ i, i < ws.length → (n + 1 + i) % Config.memWords ≠ k % Config.memWords := fun i hi => by
      rw [Nat.add_right_comm]
      exact h (i + 1) (Nat.succ_lt_succ hi)
    exact (ih (m.write n w) (n + 1) tail).trans (m.read_write_ne w (h 0 (Nat.succ_pos _)))

/-- After a store of words, an offset reads the last of the words that goes to it (R33). -/
theorem Memory.read_storeFrom_last (ws : List Word) : ∀ (m : Memory) (n i : Nat) (hi : i < ws.length),
    (∀ j, i < j → j < ws.length → (n + j) % Config.memWords ≠ (n + i) % Config.memWords) →
      (m.storeFrom n ws).read (n + i) = ws[i] := by
  induction ws with
  | nil => exact fun _ _ _ hi => absurd hi (Nat.not_lt_zero _)
  | cons w ws ih =>
    intro m n i hi h
    have later : ∀ j, i < j + 1 → j < ws.length → (n + 1 + j) % Config.memWords ≠ (n + i) % Config.memWords :=
      fun j hij hj => by
        rw [Nat.add_right_comm]
        exact h (j + 1) hij (Nat.succ_lt_succ hj)
    cases i with
    | zero =>
      exact (Memory.read_storeFrom_ne ws n (m.write n w) (n + 1) (fun j hj => later j (Nat.succ_pos j) hj)).trans
        (m.read_write_same n w)
    | succ i =>
      rw [← Nat.add_assoc, Nat.add_right_comm] at later ⊢
      exact ih (m.write n w) (n + 1) i (Nat.lt_of_succ_lt_succ hi) (fun j hij hj => later j (Nat.succ_lt_succ hij) hj)

/-- Settles O21: the load is a store of the reduced words from offset 0 on. -/
theorem loadStoresTheWords : Obligations.LoadStoresTheWords := by
  unfold Obligations.LoadStoresTheWords
  intro words s
  refine ⟨fun i hi hlast => ?_, fun n hn => ?_, rfl, rfl, rfl, rfl⟩
  · have last := Memory.read_storeFrom_last (words.map wrap16) s.mem 0 i (by simpa using hi)
    simp only [Nat.zero_add, List.length_map, List.getElem_map] at last
    exact last hlast
  · have untouched := Memory.read_storeFrom_ne (words.map wrap16) n s.mem 0
    simp only [Nat.zero_add, List.length_map] at untouched
    exact untouched hn

end Sys2Proof.Machine

/-! PROOFS. R52, R53, R66 to R68, R89 and R92, the step: its four cases as equations, the cycles it counts, the skip flag, the
fault, the invariant of the machine, and the observation points (R100). -/

namespace Sys2Proof.Machine

/-! ## The step by what it meets -/

theorem step_of_not_idle {s : State} (h : s.status ≠ .idle) : step s = .next s := by
  cases hs : s.status with
  | idle => exact absurd hs h
  | faulted r => simp only [step, hs]

section Idle

variable {s : State} {i : Instr} {ext : BitVec 6} {a : Operand} {rest : List Word} (hs : s.status = .idle)
include hs

theorem step_of_run (hk : s.skip = false) (hd : decode s.window = .ok i rest) : step s = exec i (s.advanced i.extCount) := by
  simp [step, hs, fetchInstr_of_decode hd, hk]

theorem step_of_fault (hk : s.skip = false) (hd : decode s.window = .unassigned ext a rest) :
    step s = .next (takeFault .unknownOpcode (extKey ext) (s.getReg .pc) (s.advanced (extWords a).length)) := by
  simp [step, hs, fetchInstr_of_unassigned hd, hk]

theorem step_of_skipped (hk : s.skip = true) (hd : decode s.window = .ok i rest) :
    step s = .next (skipInstr (s.advanced i.extCount)) := by
  simp [step, hs, fetchInstr_of_decode hd, hk]

theorem step_of_skipped_unassigned (hk : s.skip = true) (hd : decode s.window = .unassigned ext a rest) :
    step s = .next (skipInstr (s.advanced (extWords a).length)) := by
  simp [step, hs, fetchInstr_of_unassigned hd, hk]

end Idle

@[simp] theorem skipInstr_mem (s : State) : (skipInstr s).mem = s.mem := rfl
@[simp] theorem skipInstr_cycles (s : State) : (skipInstr s).cycles = s.cycles + 1 := rfl
@[simp] theorem skipInstr_skip (s : State) : (skipInstr s).skip = false := rfl
@[simp] theorem skipInstr_status (s : State) : (skipInstr s).status = s.status := rfl

/-- Settles O26: the run case of the step. -/
theorem stepRunsTheDecodedInstruction : Obligations.StepRunsTheDecodedInstruction := by
  unfold Obligations.StepRunsTheDecodedInstruction
  exact fun _ _ _ => step_of_run

/-- Settles O27: the two skip cases of the step; `skipInstr` ticks once more and clears the flag. -/
theorem stepSkipsOneInstruction : Obligations.StepSkipsOneInstruction := by
  unfold Obligations.StepSkipsOneInstruction
  exact fun s hs hk => ⟨fun _ _ => step_of_skipped hs hk, fun _ _ _ => step_of_skipped_unassigned hs hk⟩

theorem extKey_eq_ofNat (ext : BitVec 6) : extKey ext = BitVec.ofNat 16 (0xFF00 + ext.toNat) := by
  rw [← extKey_toNat, BitVec.ofNat_toNat, BitVec.setWidth_eq]

/-- Settles O28: the fault case of the step, after a fetch that writes PC and the counter only. -/
theorem stepFaultsOnUnassignedKey : Obligations.StepFaultsOnUnassignedKey := by
  unfold Obligations.StepFaultsOnUnassignedKey
  intro s ext a rest hs hk hd
  refine ⟨_, step_of_fault hs hk hd, ?_, fun r hr => ?_, rfl, hk⟩
  · rw [takeFault_status, extKey_eq_ofNat]
  · rw [getReg_takeFault, advanced_getReg s _ r hr]

/-- Settles O11: after `n` extension words the next one is at `PC + n + 1`; for b, `n` is 1 or 0 as a took a word or not. -/
theorem extensionWordOrder : Obligations.ExtensionWordOrder := by
  unfold Obligations.ExtensionWordOrder
  intro s op ca cb p hw
  have hhead : decodeHead s.fetch.1 = .basic op ca cb := hw
  simp only [fetchInstr, hhead, fetch_state_advanced, fetchOperand_advanced, Nat.zero_add]
  refine ⟨?_, trivial⟩
  cases takesWord ca
  · rfl
  · rfl

/-! ## Every step answers a next state -/

/-- Everything a step can do to what is no operand, with the next state named. -/
theorem step_next_cases {s t : State} (h : step s = .next t) :
    (s.status ≠ .idle ∧ t = s) ∨
    (s.status = .idle ∧ s.skip = true ∧ ∃ n, t = skipInstr (s.advanced n) ∧
      ((∃ i rest, decode s.window = .ok i rest ∧ n = i.extCount) ∨
       (∃ ext a rest, decode s.window = .unassigned ext a rest ∧ n = (extWords a).length))) ∨
    (s.status = .idle ∧ s.skip = false ∧ ∃ i rest, decode s.window = .ok i rest ∧
      exec i (s.advanced i.extCount) = .next t ∧ ChargesAndKeeps i (s.advanced i.extCount) t) ∨
    (s.status = .idle ∧ s.skip = false ∧ ∃ ext a rest, decode s.window = .unassigned ext a rest ∧
      t = takeFault .unknownOpcode (extKey ext) (s.getReg .pc) (s.advanced (extWords a).length)) := by
  obtain ⟨hs, hstep⟩ | ⟨hs, hk, ⟨i, rest, hd, hstep⟩ | ⟨ext, a, rest, hd, hstep⟩⟩ | ⟨hs, hk, i, rest, hd, hstep⟩ |
    ⟨hs, hk, ext, a, rest, hd, hstep⟩ := step_cases s <;> rw [hstep] at h
  · exact .inl ⟨hs, (Host.Outcome.next.inj h).symm⟩
  · exact .inr (.inl ⟨hs, hk, _, (Host.Outcome.next.inj h).symm, .inl ⟨i, rest, hd, rfl⟩⟩)
  · exact .inr (.inl ⟨hs, hk, _, (Host.Outcome.next.inj h).symm, .inr ⟨ext, a, rest, hd, rfl⟩⟩)
  · obtain ⟨u, hu, keeps⟩ := exec_spec i (s.advanced i.extCount)
    obtain rfl : u = t := Host.Outcome.next.inj (hu.symm.trans h)
    exact .inr (.inr (.inl ⟨hs, hk, i, rest, hd, hu, keeps⟩))
  · exact .inr (.inr (.inr ⟨hs, hk, ext, a, rest, hd, (Host.Outcome.next.inj h).symm⟩))

theorem step_answers_next (s : State) : ∃ t, step s = .next t := by
  obtain ⟨-, h⟩ | ⟨-, -, ⟨_, _, -, h⟩ | ⟨_, _, _, -, h⟩⟩ | ⟨-, -, i, _, -, h⟩ | ⟨-, -, _, _, _, -, h⟩ := step_cases s
  · exact ⟨_, h⟩
  · exact ⟨_, h⟩
  · exact ⟨_, h⟩
  · obtain ⟨t, ht, -⟩ := exec_spec i (s.advanced i.extCount)
    exact ⟨t, h.trans ht⟩
  · exact ⟨_, h⟩

theorem hostStep_of_step {s t : State} (h : step s = .next t) : hostStep s = t := by
  simp only [hostStep, h]

theorem step_eq_hostStep (s : State) : step s = .next (hostStep s) := by
  obtain ⟨t, ht⟩ := step_answers_next s
  rw [hostStep_of_step ht, ht]

/-- Settles O29: of the cases of a step from Idle only the fault ends Faulted, and the words at PC decode in one way. -/
theorem stepAlwaysCompletesAndFaultsOnlyOnUnknownKeys : Obligations.StepAlwaysCompletesAndFaultsOnlyOnUnknownKeys := by
  unfold Obligations.StepAlwaysCompletesAndFaultsOnlyOnUnknownKeys
  intro s
  have hstep := step_eq_hostStep s
  refine ⟨_, hstep, fun hidle => ?_⟩
  obtain ⟨hs, -⟩ | ⟨-, hk, n, ht, -⟩ | ⟨-, -, i, rest, hd, -, -, hstatus, -⟩ | ⟨-, hk, ext, a, rest, hd, ht⟩ :=
    step_next_cases hstep
  · exact absurd hidle hs
  · have : (hostStep s).status = .idle := by rw [ht, skipInstr_status, advanced_status, hidle]
    simp [this, hk]
  · have : (hostStep s).status = .idle := hstatus.trans hidle
    simp [this, hd]
  · simp [ht, hk, hd]

/-! ## Cycles -/

theorem extCount_le_two (i : Instr) : i.extCount ≤ 2 := by
  obtain ⟨op, a, b, rfl⟩ | ⟨a, rfl⟩ := instr_basic_or_jsr i
  · have ha := Laws.extWords_length_le_one a
    have hb := Laws.extWords_length_le_one b
    rw [extCount_instr]
    omega
  · exact (Laws.extWords_length_le_one a).trans (by decide)

/-- Costs are from 1 to 3 (R48, R49). -/
theorem cost_bounds (i : Instr) : 1 ≤ cost i ∧ cost i ≤ 3 := by
  cases i <;> simp [cost]

/-- Settles O30: by the cases of a step from Idle; the words at PC decode in one way. -/
theorem cycleAccountingOfAStep : Obligations.CycleAccountingOfAStep := by
  unfold Obligations.CycleAccountingOfAStep
  intro s t hs h
  refine ⟨fun i rest hd => ?_, fun ext a rest hk hd => ?_⟩
  · have words := extCount_le_two i
    obtain ⟨lo, hi⟩ := cost_bounds i
    refine ⟨?_, words, lo, by omega⟩
    cases hk : s.skip with
    | true =>
      obtain rfl := Host.Outcome.next.inj (h.symm.trans (step_of_skipped hs hk hd))
      simp only [if_true, skipInstr_cycles, advanced_cycles, Nat.add_right_comm]
    | false =>
      obtain ⟨u, hu, hcycles, -⟩ := exec_spec i (s.advanced i.extCount)
      obtain rfl := Host.Outcome.next.inj (h.symm.trans ((step_of_run hs hk hd).trans hu))
      simp only [hcycles, Bool.false_eq_true, if_false, advanced_cycles, Nat.add_right_comm]
  · obtain rfl := Host.Outcome.next.inj (h.symm.trans (step_of_skipped_unassigned hs hk hd))
    simp only [skipInstr_cycles, advanced_cycles, Nat.add_right_comm]

/-- A step never takes the counter back (R19). -/
theorem cycles_le_of_step {s t : State} (h : step s = .next t) : s.cycles ≤ t.cycles := by
  obtain ⟨-, rfl⟩ | ⟨-, -, n, rfl, -⟩ | ⟨-, -, i, _, -, -, hcycles, -⟩ | ⟨-, -, _, _, _, -, rfl⟩ := step_next_cases h
  · exact Nat.le_refl _
  · simp only [skipInstr_cycles, advanced_cycles]
    omega
  · rw [hcycles, advanced_cycles]
    omega
  · simp only [takeFault_cycles, advanced_cycles]
    omega

/-- A step that stays in Idle counts from 1 to 5 cycles (R68, R110). -/
theorem cycles_of_step_idle {s t : State} (h : step s = .next t) (hs : s.status = .idle) (ht : t.status = .idle) :
    s.cycles < t.cycles ∧ t.cycles ≤ s.cycles + 5 := by
  obtain ⟨hidle, -⟩ | ⟨-, -, n, rfl, hn⟩ | ⟨-, -, i, _, -, -, hcycles, -⟩ | ⟨-, -, _, _, _, -, rfl⟩ := step_next_cases h
  · exact absurd hs hidle
  · have words : n ≤ 2 := by
      obtain ⟨i, _, -, rfl⟩ | ⟨_, a, _, -, rfl⟩ := hn
      · exact extCount_le_two i
      · exact (Laws.extWords_length_le_one a).trans (by decide)
    simp only [skipInstr_cycles, advanced_cycles]
    omega
  · have words := extCount_le_two i
    obtain ⟨lo, hi⟩ := cost_bounds i
    rw [hcycles, advanced_cycles]
    omega
  · cases ht

/-! ## The skip flag and the invariant -/

/-- Settles O34: a skip clears the flag, a fault keeps it clear, and a run sets it only where the instruction is a conditional. -/
theorem skipLastsOneInstruction : Obligations.SkipLastsOneInstruction := by
  unfold Obligations.SkipLastsOneInstruction
  intro s t hs h
  obtain ⟨hidle, -⟩ | ⟨-, hk, n, rfl, -⟩ | ⟨-, hk, i, rest, hd, -, -, -, -, hskip, -⟩ | ⟨-, hk, _, _, _, -, rfl⟩ :=
    step_next_cases h
  · exact absurd hs hidle
  · exact ⟨fun _ => rfl, fun hclear => absurd (hk.symm.trans hclear) (by decide)⟩
  · refine ⟨fun hset => absurd (hk.symm.trans hset) (by decide), fun _ ht => ⟨i, rest, hd, ?_⟩⟩
    by_contra hcond
    exact absurd (ht.symm.trans ((hskip (eq_false_of_ne_true hcond)).trans hk)) (by decide)
  · exact ⟨fun _ => hk, fun _ ht => absurd (hk.symm.trans ht) (by decide)⟩

/-- The record of a fault on an unassigned word is legal (R89). -/
theorem legal_unassigned {ws rest : List Word} {ext : BitVec 6} {a : Operand} (hd : decode ws = .unassigned ext a rest)
    (pc : Word) : (Status.faulted ⟨.unknownOpcode, extKey ext, pc⟩).legal := by
  obtain ⟨lo, hi⟩ := extKey_range ext
  refine ⟨rfl, lo, hi, fun isJsr => unassigned_ne_jsr hd ?_⟩
  rw [extKey_toNat] at isJsr
  exact BitVec.eq_of_toNat_eq (Nat.add_left_cancel isJsr)

/-- In Idle the invariant is the canonical form of memory. -/
theorem inv_of_idle {s : State} (hmem : s.mem.wf = true) (hs : s.status = .idle) : s.Inv :=
  ⟨hmem, by rw [hs]; trivial, fun h => absurd hs h⟩

theorem inv_of_step {s t : State} (h : step s = .next t) (hinv : s.Inv) : t.Inv := by
  have hmem : s.mem.wf = true := hinv.1
  obtain ⟨-, rfl⟩ | ⟨hs, -, n, rfl, -⟩ | ⟨hs, -, i, _, -, -, -, hstatus, hwf, -⟩ | ⟨-, hk, ext, _, _, hd, rfl⟩ :=
    step_next_cases h
  · exact hinv
  · exact inv_of_idle hmem hs
  · exact inv_of_idle (hwf hmem) (hstatus.trans hs)
  · exact ⟨hmem, legal_unassigned hd _, fun _ => hk⟩

/-- Settles O31: by the cases of a step; a run keeps the canonical form by `exec_spec`, a fault records a legal key. -/
theorem stepKeepsTheMachineInvariant : Obligations.StepKeepsTheMachineInvariant := by
  unfold Obligations.StepKeepsTheMachineInvariant
  exact fun _ _ hinv h => inv_of_step h hinv

end Sys2Proof.Machine

/-! PROOFS. R23, R93 and R105 to R107, the host: reset, the run as the loop over `step` and where it ends, and what every host
operation keeps. -/

namespace Sys2Proof.Machine

/-! ## Reset -/

/-- Settles O18: the register file by cases, the memory with no cell listed, the rest is written in `State.reset`. -/
theorem resetValues : Obligations.ResetValues := by
  unfold Obligations.ResetValues
  exact ⟨fun r => by cases r <;> rfl, Memory.read_empty, rfl, rfl, rfl, fun _ => rfl⟩

theorem inv_reset : State.reset.Inv := inv_of_idle Memory.empty_wf rfl

/-- Settles O32: reset is Idle with no cell listed. -/
theorem resetMeetsTheMachineInvariant : Obligations.ResetMeetsTheMachineInvariant := by
  unfold Obligations.ResetMeetsTheMachineInvariant
  exact inv_reset

/-! ## The loop of run -/

section Run

variable {maxCycles : Nat}

theorem runLoop_of_stop {s : State} (h : ¬(s.status = .idle ∧ s.cycles < maxCycles)) (k : Nat) :
    runLoop maxCycles k s = s := by
  cases k with
  | zero => rfl
  | succ k => exact if_neg h

theorem runLoop_succ_of_go {s : State} (h : s.status = .idle ∧ s.cycles < maxCycles) (k : Nat) :
    runLoop maxCycles (k + 1) s = runLoop maxCycles k (hostStep s) := if_pos h

/-- Passes that are enough for a state: all that are left in the budget, or none in Faulted. -/
def EnoughPasses (maxCycles k : Nat) (s : State) : Prop := s.status = .idle → maxCycles - s.cycles ≤ k

theorem enoughPasses_budget (maxCycles : Nat) (s : State) : EnoughPasses maxCycles (maxCycles - s.cycles) s :=
  fun _ => Nat.le_refl _

/-- A pass uses up at least one cycle of the budget, or it faults. -/
theorem EnoughPasses.step {k : Nat} {s : State} (h : EnoughPasses maxCycles (k + 1) s)
    (hgo : s.status = .idle ∧ s.cycles < maxCycles) : EnoughPasses maxCycles k (hostStep s) := by
  intro hidle
  obtain ⟨more, -⟩ := cycles_of_step_idle (step_eq_hostStep s) hgo.1 hidle
  have left := h hgo.1
  omega

theorem not_enoughPasses_zero {s : State} (hgo : s.status = .idle ∧ s.cycles < maxCycles) :
    ¬EnoughPasses maxCycles 0 s := fun h => by
  have := h hgo.1
  omega

/-- The bound of the loop does not matter where it is enough (log entry 12). -/
theorem runLoop_eq_of_enough : ∀ {k j : Nat} {s : State}, EnoughPasses maxCycles k s → EnoughPasses maxCycles j s →
    runLoop maxCycles k s = runLoop maxCycles j s := by
  intro k
  induction k with
  | zero =>
    intro j s hk _
    have hstop : ¬(s.status = .idle ∧ s.cycles < maxCycles) := fun hgo => not_enoughPasses_zero hgo hk
    rw [runLoop_of_stop hstop, runLoop_of_stop hstop]
  | succ k ih =>
    intro j s hk hj
    by_cases hgo : s.status = .idle ∧ s.cycles < maxCycles
    · cases j with
      | zero => exact absurd hj (not_enoughPasses_zero hgo)
      | succ j =>
        rw [runLoop_succ_of_go hgo, runLoop_succ_of_go hgo]
        exact ih (hk.step hgo) (hj.step hgo)
    · rw [runLoop_of_stop hgo, runLoop_of_stop hgo]

/-- A loop with enough passes ends where its test fails. -/
theorem runLoop_ends : ∀ {k : Nat} {s : State}, EnoughPasses maxCycles k s →
    ¬((runLoop maxCycles k s).status = .idle ∧ (runLoop maxCycles k s).cycles < maxCycles) := by
  intro k
  induction k with
  | zero => exact fun hk hgo => not_enoughPasses_zero hgo hk
  | succ k ih =>
    intro s hk
    by_cases hgo : s.status = .idle ∧ s.cycles < maxCycles
    · rw [runLoop_succ_of_go hgo]
      exact ih (hk.step hgo)
    · rw [runLoop_of_stop hgo]
      exact hgo

/-- What holds before a run and is kept by each step that its test admits holds after it. -/
theorem hostRun_induction {P : State → Prop} (hstep : ∀ u, u.status = .idle → u.cycles < maxCycles → P u → P (hostStep u))
    {s : State} (hs : P s) : P (hostRun maxCycles s) := by
  have loop : ∀ (k : Nat) (u : State), P u → P (runLoop maxCycles k u) := by
    intro k
    induction k with
    | zero => exact fun _ hu => hu
    | succ k ih =>
      intro u hu
      by_cases hgo : u.status = .idle ∧ u.cycles < maxCycles
      · rw [runLoop_succ_of_go hgo]
        exact ih _ (hstep u hgo.1 hgo.2 hu)
      · rwa [runLoop_of_stop hgo]
  exact loop _ s hs

end Run

/-- Settles O22: one pass of the loop, and the passes left are enough for the state after it. -/
theorem runIsTheWhileLoop : Obligations.RunIsTheWhileLoop := by
  unfold Obligations.RunIsTheWhileLoop
  intro maxCycles s
  split
  · next hgo =>
    obtain ⟨k, hk⟩ : ∃ k, maxCycles - s.cycles = k + 1 := Nat.exists_eq_succ_of_ne_zero (by omega)
    have enough : EnoughPasses maxCycles (k + 1) s := hk ▸ enoughPasses_budget maxCycles s
    rw [hostRun, hk, runLoop_succ_of_go hgo]
    exact runLoop_eq_of_enough (enough.step hgo) (enoughPasses_budget maxCycles _)
  · next hstop => exact runLoop_of_stop hstop _

/-- Settles O23: the loop ends where its test fails, and the last step starts below the budget and counts at most 5 cycles. -/
theorem runEndsWithinTheBudget : Obligations.RunEndsWithinTheBudget := by
  unfold Obligations.RunEndsWithinTheBudget
  intro maxCycles s
  refine ⟨?_, fun hmet => runLoop_of_stop (by omega) _, fun hlt => ?_⟩
  · have hend := runLoop_ends (enoughPasses_budget maxCycles s)
    exact (not_and_or.mp hend).imp_right Nat.le_of_not_lt
  · refine hostRun_induction (P := fun u => u.status = .idle → u.cycles ≤ maxCycles + 4) (fun u hu hbelow _ ht => ?_)
      (fun _ => by omega)
    obtain ⟨-, most⟩ := cycles_of_step_idle (step_eq_hostStep u) hu ht
    omega

/-! ## What every host operation keeps -/

theorem hostStep_of_not_idle {s : State} (h : s.status ≠ .idle) : hostStep s = s := hostStep_of_step (step_of_not_idle h)

theorem hostRun_of_not_idle {s : State} (h : s.status ≠ .idle) (maxCycles : Nat) : hostRun maxCycles s = s :=
  runLoop_of_stop (fun hgo => h hgo.1) _

/-- Settles O24: in Faulted a step and a run answer the state, load and wipe write memory only. -/
theorem faultedIsLeftOnlyByReset : Obligations.FaultedIsLeftOnlyByReset := by
  unfold Obligations.FaultedIsLeftOnlyByReset
  refine fun s op h => ⟨step_of_not_idle h, hostRun_of_not_idle h, fun hop => ?_, rfl⟩
  cases op with
  | reset => exact absurd rfl hop
  | load words => rfl
  | wipe => rfl
  | step => exact congrArg State.status (hostStep_of_not_idle h)
  | run n => exact congrArg State.status (hostRun_of_not_idle h n)

theorem cycles_le_hostStep (s : State) : s.cycles ≤ (hostStep s).cycles := cycles_le_of_step (step_eq_hostStep s)

/-- Settles O25: a step never takes the counter back, and a run is steps. -/
theorem cyclesNeverDecreaseBetweenResets : Obligations.CyclesNeverDecreaseBetweenResets := by
  unfold Obligations.CyclesNeverDecreaseBetweenResets
  intro s op hop
  cases op with
  | reset => exact absurd rfl hop
  | load words => exact Nat.le_refl _
  | wipe => exact Nat.le_refl _
  | step => exact cycles_le_hostStep s
  | run n =>
    exact hostRun_induction (P := fun u => s.cycles ≤ u.cycles) (fun u _ _ hu => hu.trans (cycles_le_hostStep u))
      (Nat.le_refl _)

theorem inv_hostStep {s : State} (h : s.Inv) : (hostStep s).Inv := inv_of_step (step_eq_hostStep s) h

/-- Settles O33: load and wipe keep the canonical form of memory and touch nothing else of the invariant; a run is steps. -/
theorem hostOperationsKeepTheMachineInvariant : Obligations.HostOperationsKeepTheMachineInvariant := by
  unfold Obligations.HostOperationsKeepTheMachineInvariant
  intro s op hinv
  have ⟨hmem, hstatus, hskip⟩ := hinv
  cases op with
  | reset => exact inv_reset
  | load words => exact ⟨Memory.storeFrom_wf _ _ _ hmem, hstatus, hskip⟩
  | wipe => exact ⟨Memory.empty_wf, hstatus, hskip⟩
  | step => exact inv_hostStep hinv
  | run n => exact hostRun_induction (P := State.Inv) (fun _ _ _ => inv_hostStep) hinv

end Sys2Proof.Machine

/-! PROOFS. R14 and R19, what a program cannot tell apart: a relation of states that the shared operations respect is respected
by every instruction; so no instruction reads O except through an operand, and none sees the cycle counter. -/

namespace Sys2Proof.Machine

/-! ## Relations that every instruction respects -/

/-- A relation of states that the shared operations of the instruction rules respect, reads and stores for the operands in `ok`. -/
structure RespectedByOps (R : State → State → Prop) (ok : Operand → Prop) : Prop where
  value : ∀ {a : Operand} {s u : State}, ok a → R s u → operandValue a u = operandValue a s
  read : ∀ (a : Operand) {s u : State}, R s u → R (afterRead a s) (afterRead a u)
  store : ∀ {a : Operand} (v : Word) {s0 u0 s u : State}, ok a → R s0 u0 → R s u →
    R (storeOperand a v s0 s) (storeOperand a v u0 u)
  stackSlot : ok .push
  setReg : ∀ (r : Reg) (v : Word) {s u : State}, R s u → R (s.setReg r v) (u.setReg r v)
  setSkip : ∀ (b : Bool) {s u : State}, R s u → R (s.setSkip b) (u.setSkip b)
  tick : ∀ (n : Nat) {s u : State}, R s u → R (s.tick n) (u.tick n)
  pc : ∀ {s u : State}, R s u → u.getReg .pc = s.getReg .pc

namespace RespectedByOps

variable {R : State → State → Prop} {ok : Operand → Prop} (hR : RespectedByOps R ok)
include hR

theorem push (v : Word) {s u : State} (h : R s u) : R (s.push v) (u.push v) := by
  rw [State.push_eq, State.push_eq]
  exact hR.store v hR.stackSlot h h

section Shapes

variable {a b : Operand} (ha : ok a) (hb : ok b) {s u : State} (h : R s u)
include h

theorem reads : R (afterRead b (afterRead a s)) (afterRead b (afterRead a u)) := hR.read b (hR.read a h)

include hb in
theorem second_value : operandValue b (afterRead a u) = operandValue b (afterRead a s) := hR.value hb (hR.read a h)

include ha in
theorem jsr_related : R (((afterRead a (s.push (s.getReg .pc))).setReg .pc (operandValue a (s.push (s.getReg .pc)))).tick 2)
    (((afterRead a (u.push (u.getReg .pc))).setReg .pc (operandValue a (u.push (u.getReg .pc)))).tick 2) := by
  have pushed := hR.push (s.getReg .pc) h
  rw [hR.pc h, hR.value ha pushed]
  exact hR.tick 2 (hR.setReg .pc _ (hR.read a pushed))

include ha hb

theorem setOnly_related (f : Word → Word → Word) (n : Nat) : R (setOnly f a b (s.tick n)) (setOnly f a b (u.tick n)) := by
  rw [setOnly_spec, setOnly_spec, hR.value ha h, hR.second_value hb h]
  exact hR.tick n (hR.store _ ha h (hR.reads h))

theorem setThenO_related (f g : Word → Word → Word) (n : Nat) :
    R (setThenO f g a b (s.tick n)) (setThenO f g a b (u.tick n)) := by
  rw [setThenO_spec, setThenO_spec, hR.value ha h, hR.second_value hb h]
  exact hR.tick n (hR.setReg .o _ (hR.store _ ha h (hR.reads h)))

theorem oThenSet_related (f g : Word → Word → Word) (n : Nat) :
    R (oThenSet f g a b (s.tick n)) (oThenSet f g a b (u.tick n)) := by
  rw [oThenSet_spec, oThenSet_spec, hR.value ha h, hR.second_value hb h]
  exact hR.tick n (hR.store _ ha h (hR.setReg .o _ (hR.reads h)))

theorem skipIf_related (c : Word → Word → Bool) (n : Nat) : R (skipIf c a b (s.tick n)) (skipIf c a b (u.tick n)) := by
  rw [skipIf_spec, skipIf_spec, hR.value ha h, hR.second_value hb h]
  split
  · exact hR.setSkip true (hR.tick n (hR.reads h))
  · exact hR.tick n (hR.reads h)

theorem mod_related : R (modNext a b s) (modNext a b u) := by
  have stored := fun v => hR.store v ha h (hR.reads (a := a) (b := b) h)
  simp only [modNext, hR.value ha h, hR.second_value (a := a) hb h]
  split
  · exact hR.tick 3 (hR.setReg .o 0 (stored _))
  · exact hR.tick 3 (stored _)

theorem set_related : R ((storeOperand a (operandValue b s) s (afterRead b s)).tick 1)
    ((storeOperand a (operandValue b u) u (afterRead b u)).tick 1) := by
  rw [hR.value hb h]
  exact hR.tick 1 (hR.store _ ha h (hR.read b h))

end Shapes

/-- The relation is respected by every instruction with operands in `ok`. -/
theorem exec_eq_next {i : Instr} (ha : ok (operandsOf i).1) (hb : ∀ b, (operandsOf i).2 = some b → ok b) :
    ∃ next : State → State, (∀ s, exec i s = .next (next s)) ∧ ∀ s u, R s u → R (next s) (next u) := by
  cases i with
  | set a b => exact ⟨_, execSet_spec a b, fun _ _ => hR.set_related ha (hb b rfl)⟩
  | add a b => exact ⟨_, fun _ => rfl, fun _ _ h => hR.setThenO_related ha (hb b rfl) h _ _ _⟩
  | sub a b => exact ⟨_, fun _ => rfl, fun _ _ h => hR.setThenO_related ha (hb b rfl) h _ _ _⟩
  | mul a b => exact ⟨_, fun _ => rfl, fun _ _ h => hR.setThenO_related ha (hb b rfl) h _ _ _⟩
  | div a b => exact ⟨_, fun _ => rfl, fun _ _ h => hR.setThenO_related ha (hb b rfl) h _ _ _⟩
  | mod a b => exact ⟨modNext a b, execMod_spec a b, fun _ _ => hR.mod_related ha (hb b rfl)⟩
  | shl a b => exact ⟨_, fun _ => rfl, fun _ _ h => hR.setThenO_related ha (hb b rfl) h _ _ _⟩
  | shr a b => exact ⟨_, fun _ => rfl, fun _ _ h => hR.oThenSet_related ha (hb b rfl) h _ _ _⟩
  | and a b => exact ⟨_, fun _ => rfl, fun _ _ h => hR.setOnly_related ha (hb b rfl) h _ _⟩
  | bor a b => exact ⟨_, fun _ => rfl, fun _ _ h => hR.setOnly_related ha (hb b rfl) h _ _⟩
  | xor a b => exact ⟨_, fun _ => rfl, fun _ _ h => hR.setOnly_related ha (hb b rfl) h _ _⟩
  | ife a b => exact ⟨_, fun _ => rfl, fun _ _ h => hR.skipIf_related ha (hb b rfl) h _ _⟩
  | ifn a b => exact ⟨_, fun _ => rfl, fun _ _ h => hR.skipIf_related ha (hb b rfl) h _ _⟩
  | ifg a b => exact ⟨_, fun _ => rfl, fun _ _ h => hR.skipIf_related ha (hb b rfl) h _ _⟩
  | ifb a b => exact ⟨_, fun _ => rfl, fun _ _ h => hR.skipIf_related ha (hb b rfl) h _ _⟩
  | jsr a => exact ⟨_, execJsr_pushed a, fun _ _ => hR.jsr_related ha⟩

theorem exec_related {i : Instr} (ha : ok (operandsOf i).1) (hb : ∀ b, (operandsOf i).2 = some b → ok b) {s t u : State}
    (h : R s u) (ht : exec i s = .next t) : ∃ t', exec i u = .next t' ∧ R t t' := by
  obtain ⟨next, hexec, hnext⟩ := hR.exec_eq_next ha hb
  obtain rfl : next s = t := Host.Outcome.next.inj ((hexec s).symm.trans ht)
  exact ⟨next u, hexec u, hnext s u h⟩

end RespectedByOps

/-! ## O -/

@[simp] theorem State.setReg_setReg_self (s : State) (r : Reg) (v w : Word) : (s.setReg r v).setReg r w = s.setReg r w :=
  congrArg (fun f : RegFile => { s with regs := f }) (RegFile.set_set s.regs r v w)

/-- The two states are equal but for O. -/
def DifferInOOnly (s u : State) : Prop := ∃ v, u = s.setReg .o v

/-- A store depends on the state of the resolution only by the general registers (R59). -/
theorem storeOperand_resolved_congr (a : Operand) (w : Word) {s0 u0 : State} (s : State)
    (h : ∀ g : GReg, s0.getReg g.toReg = u0.getReg g.toReg) : storeOperand a w s0 s = storeOperand a w u0 s := by
  rw [← set_resolve, resolve_congr a h, set_resolve]

theorem differInOOnly_respected : RespectedByOps DifferInOOnly (fun a => operandNames .o a = false) where
  value := by
    rintro a s _ ha ⟨v, rfl⟩
    exact operandValue_setReg a s .o v (by decide) ha
  read := by
    rintro a s _ ⟨v, rfl⟩
    exact ⟨v, afterRead_setReg a s .o v (by decide)⟩
  store := by
    rintro a w s0 _ s _ ha ⟨v0, rfl⟩ ⟨v, rfl⟩
    have origin : ∀ g : GReg, (s0.setReg .o v0).getReg g.toReg = (s0.setReg .o v).getReg g.toReg := fun g => by
      rw [setReg_o_greg, setReg_o_greg]
    rw [storeOperand_resolved_congr a w _ origin]
    exact ⟨v, storeOperand_setReg a w s0 s .o v (by decide) ha⟩
  stackSlot := rfl
  setReg := by
    rintro r w s _ ⟨v, rfl⟩
    by_cases hr : r = .o
    · subst hr
      exact ⟨w, by simp only [State.setReg_setReg_self]⟩
    · exact ⟨v, State.setReg_comm s .o r v w (Ne.symm hr)⟩
  setSkip := by
    rintro b s _ ⟨v, rfl⟩
    exact ⟨v, rfl⟩
  tick := by
    rintro n s _ ⟨v, rfl⟩
    exact ⟨v, rfl⟩
  pc := by
    rintro s _ ⟨v, rfl⟩
    exact State.getReg_setReg_ne s .o .pc v (by decide)

theorem operandNames_of_instrNames {r : Reg} {i : Instr} (h : instrNames r i = false) :
    operandNames r (operandsOf i).1 = false ∧ ∀ b, (operandsOf i).2 = some b → operandNames r b = false := by
  obtain ⟨ha, hb⟩ := Bool.or_eq_false_iff.mp h
  exact ⟨ha, fun b hi => by simpa [hi] using hb⟩

/-- Settles O53: to differ in O only is a relation that the operands other than O respect. -/
theorem noInstructionReadsOImplicitly : Obligations.NoInstructionReadsOImplicitly := by
  unfold Obligations.NoInstructionReadsOImplicitly
  intro i s t v hn ht
  obtain ⟨ha, hb⟩ := operandNames_of_instrNames hn
  obtain ⟨_, ht', w, rfl⟩ := differInOOnly_respected.exec_related ha hb ⟨v, rfl⟩ ht
  exact ⟨_, ht', State.setReg_setReg_self t .o w 0⟩

/-! ## The cycle counter -/

theorem State.tick_comm (s : State) (n m : Nat) : (s.tick n).tick m = (s.tick m).tick n :=
  congrArg (fun k => { s with cycles := k }) (Nat.add_right_comm s.cycles n m)

theorem tick_respected (n : Nat) : RespectedByOps (fun s u => u = s.tick n) (fun _ => True) where
  value := by
    rintro a s _ - rfl
    exact operandValue_tick a s n
  read := by
    rintro a s _ rfl
    exact afterRead_tick a s n
  store := by
    rintro a v s0 _ s _ - rfl rfl
    exact storeOperand_tick a v s0 s n n
  stackSlot := trivial
  setReg := by
    rintro r v s _ rfl
    rfl
  setSkip := by
    rintro b s _ rfl
    rfl
  tick := by
    rintro m s _ rfl
    exact State.tick_comm s n m
  pc := by
    rintro s _ rfl
    rfl

theorem exec_tick {i : Instr} {s t : State} (h : exec i s = .next t) (n : Nat) : exec i (s.tick n) = .next (t.tick n) := by
  obtain ⟨_, ht, rfl⟩ := (tick_respected n).exec_related trivial (fun _ _ => trivial) rfl h
  exact ht

theorem advanced_tick (s : State) (n k : Nat) : (s.tick n).advanced k = (s.advanced k).tick n :=
  congrArg (fun c => { s.advanced k with cycles := c }) (Nat.add_right_comm s.cycles n k)

theorem skipInstr_tick (s : State) (n : Nat) : skipInstr (s.tick n) = (skipInstr s).tick n :=
  congrArg (State.setSkip · false) (State.tick_comm s n 1)

/-- Cycles counted before a step are counted after it, and change nothing else of it (R19). -/
theorem step_tick {s t : State} (h : step s = .next t) (n : Nat) : step (s.tick n) = .next (t.tick n) := by
  obtain ⟨hs, rfl⟩ | ⟨hs, hk, k, rfl, ⟨i, rest, hd, rfl⟩ | ⟨ext, a, rest, hd, rfl⟩⟩ | ⟨hs, hk, i, rest, hd, ht, -⟩ |
    ⟨hs, hk, ext, a, rest, hd, rfl⟩ := step_next_cases h
  · exact step_of_not_idle hs
  · rw [step_of_skipped (s := s.tick n) hs hk hd, advanced_tick, skipInstr_tick]
  · rw [step_of_skipped_unassigned (s := s.tick n) hs hk hd, advanced_tick, skipInstr_tick]
  · rw [step_of_run (s := s.tick n) hs hk hd, advanced_tick, exec_tick ht]
  · rw [step_of_fault (s := s.tick n) hs hk hd, advanced_tick]
    rfl

/-- Settles O55: the state with its counter at 0 makes the same step, and `d` is the counter after it. -/
theorem programsCannotSeeTheCycleCounter : Obligations.ProgramsCannotSeeTheCycleCounter := by
  unfold Obligations.ProgramsCannotSeeTheCycleCounter
  intro s t n h
  have counted : ∀ m, ({ s with cycles := 0 } : State).tick m = { s with cycles := m } := fun m => by simp [State.tick]
  obtain ⟨z, hz⟩ := step_answers_next { s with cycles := 0 }
  obtain rfl : z.tick s.cycles = t := by
    have hs := step_tick hz s.cycles
    rw [counted] at hs
    exact Host.Outcome.next.inj (hs.symm.trans h)
  refine ⟨z.cycles, Nat.add_comm _ _, ?_⟩
  rw [← counted n, step_tick hz n, Nat.add_comm n]
  rfl

end Sys2Proof.Machine

/-! PROOFS. R100, the observation points of a step, by the case of the step. -/

namespace Sys2Proof.Machine

theorem observations_of_not_idle {s : State} (h : s.status ≠ .idle) : observations s = [] := by
  cases hs : s.status with
  | idle => exact absurd hs h
  | faulted r => simp only [observations, hs]

section Idle

variable {s : State} {i : Instr} {ext : BitVec 6} {a : Operand} {rest : List Word} (hs : s.status = .idle)
include hs

theorem observations_of_run (hk : s.skip = false) (hd : decode s.window = .ok i rest) :
    observations s =
      [⟨.beforeStep, s, none⟩,
       ⟨.beforeExecution, (s.advanced i.extCount).tick (cost i), some (observedInstr (.instr i) (s.advanced i.extCount))⟩,
       ⟨.afterExecution, hostStep s, none⟩, ⟨.afterStep, hostStep s, none⟩] := by
  simp [observations, hs, fetchInstr_of_decode hd, hk]

theorem observations_of_fault (hk : s.skip = false) (hd : decode s.window = .unassigned ext a rest) :
    observations s = [⟨.beforeStep, s, none⟩] := by
  simp [observations, hs, fetchInstr_of_unassigned hd, hk]

theorem observations_of_skipped (hk : s.skip = true) (hd : decode s.window = .ok i rest) :
    observations s =
      [⟨.beforeStep, s, none⟩,
       ⟨.skippedInstruction, skipInstr (s.advanced i.extCount), some (observedInstr (.instr i) (s.advanced i.extCount))⟩,
       ⟨.afterStep, hostStep s, none⟩] := by
  simp [observations, hs, fetchInstr_of_decode hd, hk]

theorem observations_of_skipped_unassigned (hk : s.skip = true) (hd : decode s.window = .unassigned ext a rest) :
    observations s =
      [⟨.beforeStep, s, none⟩,
       ⟨.skippedInstruction, skipInstr (s.advanced (extWords a).length),
        some (observedInstr (.unassigned ext a) (s.advanced (extWords a).length))⟩,
       ⟨.afterStep, hostStep s, none⟩] := by
  simp [observations, hs, fetchInstr_of_unassigned hd, hk]

end Idle

/-- Which points fire, by what the step does. -/
theorem observations_cases {s t : State} (h : step s = .next t) :
    (s.status ≠ .idle ∧ observations s = []) ∨
    (s.status = .idle ∧ s.skip = true ∧ t.status = .idle ∧ ∃ u x,
      observations s = [⟨.beforeStep, s, none⟩, ⟨.skippedInstruction, u, x⟩, ⟨.afterStep, t, none⟩]) ∨
    (s.status = .idle ∧ s.skip = false ∧ t.status = .idle ∧ ∃ u x, observations s =
      [⟨.beforeStep, s, none⟩, ⟨.beforeExecution, u, x⟩, ⟨.afterExecution, t, none⟩, ⟨.afterStep, t, none⟩]) ∨
    (s.status = .idle ∧ s.skip = false ∧ t.status ≠ .idle ∧ observations s = [⟨.beforeStep, s, none⟩]) := by
  obtain rfl : hostStep s = t := hostStep_of_step h
  obtain ⟨hs, -⟩ | ⟨hs, hk, n, ht, ⟨i, rest, hd, -⟩ | ⟨ext, a, rest, hd, -⟩⟩ | ⟨hs, hk, i, rest, hd, -, -, hstatus, -⟩ |
    ⟨hs, hk, ext, a, rest, hd, ht⟩ := step_next_cases h
  · exact .inl ⟨hs, observations_of_not_idle hs⟩
  · have hidle : (hostStep s).status = .idle := (congrArg State.status ht).trans hs
    exact .inr (.inl ⟨hs, hk, hidle, _, _, observations_of_skipped hs hk hd⟩)
  · have hidle : (hostStep s).status = .idle := (congrArg State.status ht).trans hs
    exact .inr (.inl ⟨hs, hk, hidle, _, _, observations_of_skipped_unassigned hs hk hd⟩)
  · exact .inr (.inr (.inl ⟨hs, hk, hstatus.trans hs, _, _, observations_of_run hs hk hd⟩))
  · refine .inr (.inr (.inr ⟨hs, hk, fun hidle => ?_, observations_of_fault hs hk hd⟩))
    rw [ht] at hidle
    cases hidle

/-- Settles O56: the clauses on the first, the last and the skipped point by `observations_cases`, the full lists by the equation
of each case of the step. -/
theorem observationPointsOfAStep : Obligations.ObservationPointsOfAStep := by
  unfold Obligations.ObservationPointsOfAStep
  intro s t h
  have cases := observations_cases h
  refine ⟨observations_of_not_idle, fun hs => ?_, fun hs ht => ?_, fun hs ht => ?_, ?_, fun i rest hs hd => ?_,
    fun ext a rest hs hk hd => ?_⟩
  · obtain ⟨hns, -⟩ | ⟨-, -, -, u, x, ho⟩ | ⟨-, -, -, u, x, ho⟩ | ⟨-, -, -, ho⟩ := cases
    · exact absurd hs hns
    all_goals rw [ho]; rfl
  · obtain ⟨hns, -⟩ | ⟨-, -, -, u, x, ho⟩ | ⟨-, -, -, u, x, ho⟩ | ⟨-, -, hnt, -⟩ := cases
    · exact absurd hs hns
    · rw [ho]; rfl
    · rw [ho]; rfl
    · exact absurd ht hnt
  · obtain ⟨hns, -⟩ | ⟨-, -, hidle, -⟩ | ⟨-, -, hidle, -⟩ | ⟨-, -, -, ho⟩ := cases
    · exact absurd hs hns
    · exact absurd hidle ht
    · exact absurd hidle ht
    · exact ho
  · obtain ⟨hs, ho⟩ | ⟨hs, hk, -, u, x, ho⟩ | ⟨hs, hk, -, u, x, ho⟩ | ⟨hs, hk, -, ho⟩ := cases
    · simp [ho, hs]
    all_goals simp [ho, hs, hk]
  · obtain rfl : hostStep s = t := hostStep_of_step h
    exact ⟨fun hk => observations_of_run hs hk hd, fun hk => observations_of_skipped hs hk hd⟩
  · obtain rfl : hostStep s = t := hostStep_of_step h
    exact observations_of_skipped_unassigned hs hk hd

end Sys2Proof.Machine

/-! PROOFS. R61 and R71 to R86, what each instruction does: the shapes of the instruction rules with the values that the rule
computes. -/

namespace Sys2Proof.Machine

/-- Settles O16: the first get fills the cache of the handle it answers, which every later get answers. -/
theorem stackSlotHandleCachesItsPop : Obligations.StackSlotHandleCachesItsPop := by
  unfold Obligations.StackSlotHandleCachesItsPop
  exact fun s _ _ _ => ⟨rfl, State.getReg_setReg_self s .sp _, rfl, rfl, rfl, rfl, rfl⟩

/-! ## Arithmetic -/

/-- Settles O35: b is the one operand read, and the store is resolved before that read. -/
theorem setEffect : Obligations.SetEffect := by
  unfold Obligations.SetEffect
  exact execSet_spec

/-- What exec answers where the rule is `setThenO` (ADD, SUB, MUL, DIV, SHL). -/
theorem next_setThenO (f g : Word → Word → Word) (a b : Operand) (s : State) (n : Nat) :
    (Host.Outcome.next (setThenO f g a b (s.tick n)) : Host.Outcome State Fault Refusal) =
      .next (((storeOperand a (f (operandValue a s) (operandValue b (afterRead a s))) s (afterRead b (afterRead a s))).setReg .o
        (g (operandValue a s) (operandValue b (afterRead a s)))).tick n) :=
  congrArg Host.Outcome.next (setThenO_spec f g a b s n)

/-- Settles O36: `setThenO` with the sum and the carry. -/
theorem addEffect : Obligations.AddEffect := by
  unfold Obligations.AddEffect
  intro a b s va vb read
  rw [← addResult_eq, ← addO_eq]
  exact next_setThenO addResult addO a b s 2

/-- Settles O37: `setThenO` with the difference and the borrow. -/
theorem subEffect : Obligations.SubEffect := by
  unfold Obligations.SubEffect
  intro a b s va vb read
  rw [← subResult_eq, ← subO_eq]
  exact next_setThenO subResult subO a b s 2

/-- Settles O38: `setThenO` with the two words of the product. -/
theorem mulEffect : Obligations.MulEffect := by
  unfold Obligations.MulEffect
  exact fun a b s => ⟨_, _, mul_words _ _, next_setThenO mulResult mulO a b s 2⟩

theorem eq_zero_of_toNat {v : Word} (h : v.toNat = 0) : v = 0 := BitVec.eq_of_toNat_eq h

theorem ne_zero_of_toNat {v : Word} (h : v.toNat ≠ 0) : v ≠ 0 := fun hv => h (congrArg BitVec.toNat hv)

theorem divResult_zero (va : Word) : divResult va 0 = 0 := if_pos rfl

theorem divO_zero (va : Word) : divO va 0 = 0 := if_pos rfl

theorem modResult_zero (va : Word) : modResult va 0 = 0 := if_pos rfl

/-- Settles O39: `setThenO` with the quotient and the fraction word, which a zero divisor makes 0. -/
theorem divEffect : Obligations.DivEffect := by
  unfold Obligations.DivEffect
  intro a b s va vb read
  refine ⟨divResult va vb, divO va vb, fun hvb => ?_, fun _ => ⟨divResult_toNat va vb, divO_toNat va vb⟩,
    next_setThenO divResult divO a b s 3⟩
  rw [eq_zero_of_toNat hvb]
  exact ⟨divResult_zero va, divO_zero va⟩

/-- Settles O40: `execMod_spec` at a zero and at another divisor. -/
theorem modEffect : Obligations.ModEffect := by
  unfold Obligations.ModEffect
  intro a b s va vb read
  have spec : exec (.mod a b) s = .next ((if vb = 0 then (storeOperand a (modResult va vb) s read).setReg .o 0
    else storeOperand a (modResult va vb) s read).tick 3) := execMod_spec a b s
  refine ⟨fun hvb => ?_, fun hvb => ?_⟩
  · have zero := eq_zero_of_toNat hvb
    rw [spec, if_pos zero, zero, modResult_zero]
  · have nonzero := ne_zero_of_toNat hvb
    rw [spec, if_neg nonzero, modResult_toNat va vb nonzero]

/-- Settles O41: `setThenO` with the two words of the shifted value. -/
theorem shlEffect : Obligations.ShlEffect := by
  unfold Obligations.ShlEffect
  exact fun a b s => ⟨_, _, shl_words _ _, next_setThenO shlResult shlO a b s 2⟩

/-- Settles O42: `oThenSet` with the two words of the value shifted right in the upper half. -/
theorem shrEffect : Obligations.ShrEffect := by
  unfold Obligations.ShrEffect
  exact fun a b s => ⟨_, _, shr_words _ _, congrArg Host.Outcome.next (oThenSet_spec shrResult shrO a b s 2)⟩

/-! ## Bitwise, conditionals, JSR -/

/-- Settles O43: `setOnly` with the and, the or and the exclusive or. -/
theorem bitwiseEffect : Obligations.BitwiseEffect := by
  unfold Obligations.BitwiseEffect
  exact fun a b s => ⟨_, _, _, fun _ => BitVec.getLsbD_and, fun _ => BitVec.getLsbD_or, fun _ => BitVec.getLsbD_xor,
    congrArg Host.Outcome.next (setOnly_spec andResult a b s 1), congrArg Host.Outcome.next (setOnly_spec borResult a b s 1),
    congrArg Host.Outcome.next (setOnly_spec xorResult a b s 1)⟩

/-- What exec answers for a conditional (43_conditional.md). -/
theorem next_skipIf (c : Word → Word → Bool) (a b : Operand) (s : State) :
    (Host.Outcome.next (skipIf c a b (s.tick 2)) : Host.Outcome State Fault Refusal) =
      .next (if c (operandValue a s) (operandValue b (afterRead a s)) = true
        then { (afterRead b (afterRead a s)).tick 2 with skip := true } else (afterRead b (afterRead a s)).tick 2) :=
  congrArg Host.Outcome.next (skipIf_spec c a b s 2)

/-- Settles O44: `skipIf` with each of the four tests. -/
theorem conditionalEffect : Obligations.ConditionalEffect := by
  unfold Obligations.ConditionalEffect
  intro a b s va vb read
  refine ⟨(next_skipIf ifeSkips a b s).trans ?_, (next_skipIf ifnSkips a b s).trans ?_,
    (next_skipIf ifgSkips a b s).trans ?_, (next_skipIf ifbSkips a b s).trans ?_⟩
  · by_cases h : va = vb <;> simp [ifeSkips, va, vb, read, h]
  · simp [ifnSkips, va, vb, read]
  · by_cases h : vb.toNat < va.toNat <;> simp [ifgSkips_eq, va, vb, read, h]
  · simp [ifbSkips_eq, va, vb, read]

/-- Settles O45: the push is a store to a stack slot. -/
theorem jsrEffect : Obligations.JsrEffect := by
  unfold Obligations.JsrEffect
  intro a s pushed
  have push_eq : s.push (s.getReg .pc) = pushed := State.push_eq s _
  rw [← push_eq]
  exact execJsr_pushed a s

end Sys2Proof.Machine

/-! PROOFS. 41_arithmetic.md to 44_extended.md, the frames: what the reads of the operands and a store to an operand may change,
and what every instruction leaves unchanged. -/

namespace Sys2Proof.Machine

/-! ## Reads and a store -/

/-- What the reads may have changed of `s`: SP where an operand is a stack slot, and O if `o`. -/
def ReadFrame (a b : Operand) (o : Prop) (s u : State) : Prop :=
  (∀ r, ¬(r = .o ∧ o) → ¬(r = .sp ∧ (isStackSlot a || isStackSlot b) = true) → u.getReg r = s.getReg r) ∧
  u.skip = s.skip ∧ u.status = s.status ∧ u.mem = s.mem

/-- What an instruction that stores to `a` in state `u` may have changed of `s`: also the register or the word it stores to. -/
def StoreFrame (a b : Operand) (o : Prop) (s u t : State) : Prop :=
  (∀ r, a ≠ .reg r → ¬(r = .o ∧ o) → ¬(r = .sp ∧ (isStackSlot a || isStackSlot b) = true) → t.getReg r = s.getReg r) ∧
  t.skip = s.skip ∧ t.status = s.status ∧
  (∀ k : Word, (resolve a s).storeAddress u ≠ some k → t.readWord k = s.readWord k)

section Frames

variable {a b : Operand} {o : Prop} {s u t : State}

theorem readBoth_frame (a b : Operand) (s : State) : ReadFrame a b False s (afterRead b (afterRead a s)) :=
  ⟨fun r _ hsp => afterRead_both_getReg a b s r hsp, by simp, by simp, by simp⟩

theorem readSecond_frame (a b : Operand) (s : State) : ReadFrame a b False s (afterRead b s) :=
  ⟨fun r _ hsp => afterRead_getReg_ne b s r (fun e => hsp ⟨e.1, by simp [e.2]⟩), by simp, by simp, by simp⟩

theorem ReadFrame.setReg_o (h : ReadFrame a b o s u) (w : Word) : ReadFrame a b True s (u.setReg .o w) := by
  obtain ⟨hreg, hskip, hstatus, hmem⟩ := h
  refine ⟨fun r ho hsp => ?_, hskip, hstatus, hmem⟩
  have hr : r ≠ .o := fun e => ho ⟨e, trivial⟩
  rw [State.getReg_setReg_ne u .o r w hr, hreg r (fun e => hr e.1) hsp]

theorem ReadFrame.storeOperand (h : ReadFrame a b o s u) (v : Word) : StoreFrame a b o s u (storeOperand a v s u) := by
  obtain ⟨hreg, hskip, hstatus, hmem⟩ := h
  refine ⟨fun r ha ho hsp => ?_, by simpa using hskip, by simpa using hstatus, fun k hk => ?_⟩
  · rw [storeOperand_getReg a v s u r ha (fun e => hsp ⟨e.1, by simp [e.2]⟩), hreg r ho hsp]
  · rw [storeOperand_readWord a v s u k hk, State.readWord, hmem, State.readWord]

theorem StoreFrame.setReg_o (h : StoreFrame a b o s u t) (w : Word) : StoreFrame a b True s u (t.setReg .o w) := by
  obtain ⟨hreg, hskip, hstatus, hmem⟩ := h
  refine ⟨fun r ha ho hsp => ?_, hskip, hstatus, hmem⟩
  have hr : r ≠ .o := fun e => ho ⟨e, trivial⟩
  rw [State.getReg_setReg_ne t .o r w hr, hreg r ha (fun e => hr e.1) hsp]

theorem StoreFrame.mono {o' : Prop} (h : StoreFrame a b o s u t) (himp : o → o') : StoreFrame a b o' s u t := by
  obtain ⟨hreg, hrest⟩ := h
  exact ⟨fun r ha ho => hreg r ha (fun e => ho ⟨e.1, himp e.2⟩), hrest⟩

theorem StoreFrame.tick (h : StoreFrame a b o s u t) (n : Nat) : StoreFrame a b o s u (t.tick n) := h

/-- The store address does not depend on O, so a write to O before the store does not move it. -/
theorem StoreFrame.of_setReg_o {w : Word} (h : StoreFrame a b o s (u.setReg .o w) t) : StoreFrame a b o s u t := by
  have address : (resolve a s).storeAddress (u.setReg .o w) = (resolve a s).storeAddress u := by cases a <;> rfl
  obtain ⟨hreg, hskip, hstatus, hmem⟩ := h
  exact ⟨hreg, hskip, hstatus, fun k hk => hmem k (address ▸ hk)⟩

end Frames

/-! ## The shapes of the instruction rules -/

theorem setOnly_frame (f : Word → Word → Word) (a b : Operand) (s : State) (n : Nat) :
    StoreFrame a b False s (readBoth a b s).state (setOnly f a b (s.tick n)) := by
  obtain ⟨-, -, hst⟩ := readBoth_spec a b s
  rw [setOnly_spec, hst]
  exact ((readBoth_frame a b s).storeOperand _).tick n

theorem setThenO_frame (f g : Word → Word → Word) (a b : Operand) (s : State) (n : Nat) :
    StoreFrame a b True s (readBoth a b s).state (setThenO f g a b (s.tick n)) := by
  obtain ⟨-, -, hst⟩ := readBoth_spec a b s
  rw [setThenO_spec, hst]
  exact (((readBoth_frame a b s).storeOperand _).setReg_o _).tick n

theorem oThenSet_frame (f g : Word → Word → Word) (a b : Operand) (s : State) (n : Nat) :
    StoreFrame a b True s (readBoth a b s).state (oThenSet f g a b (s.tick n)) := by
  obtain ⟨-, -, hst⟩ := readBoth_spec a b s
  rw [oThenSet_spec, hst]
  exact ((((readBoth_frame a b s).setReg_o _).storeOperand _).of_setReg_o).tick n

theorem modNext_frame (a b : Operand) (s : State) :
    StoreFrame a b ((readBoth a b s).vb = 0) s (readBoth a b s).state (modNext a b s) := by
  obtain ⟨-, hvb, hst⟩ := readBoth_spec a b s
  rw [hst, hvb]
  have stored := fun v => (readBoth_frame a b s).storeOperand v
  unfold modNext
  split
  · next zero => exact (((stored _).setReg_o 0).mono (fun _ => zero)).tick 3
  · exact ((stored _).mono False.elim).tick 3

theorem skipIf_frame (c : Word → Word → Bool) (a b : Operand) (s : State) (n : Nat) :
    (∀ r, ¬(r = .sp ∧ (isStackSlot a || isStackSlot b) = true) → (skipIf c a b (s.tick n)).getReg r = s.getReg r) ∧
    (s.skip = true → (skipIf c a b (s.tick n)).skip = true) ∧ (skipIf c a b (s.tick n)).status = s.status ∧
    (skipIf c a b (s.tick n)).mem = s.mem := by
  obtain ⟨hreg, hskip, hstatus, hmem⟩ := readBoth_frame a b s
  have hregs := fun r => hreg r (fun e => e.2)
  rw [skipIf_spec]
  split
  · exact ⟨hregs, fun _ => rfl, hstatus, hmem⟩
  · exact ⟨hregs, fun h => hskip.trans h, hstatus, hmem⟩

/-! ## The instructions -/

theorem arithmetic_storeFrame {a b : Operand} {s t : State} {i : Instr}
    (hi : i ∈ [Instr.add a b, .sub a b, .mul a b, .div a b, .shl a b, .shr a b]) (h : exec i s = .next t) :
    StoreFrame a b True s (readBoth a b s).state t := by
  simp only [List.mem_cons, List.not_mem_nil, or_false] at hi
  obtain rfl | rfl | rfl | rfl | rfl | rfl := hi <;> obtain rfl := Host.Outcome.next.inj h
  · exact setThenO_frame _ _ a b s _
  · exact setThenO_frame _ _ a b s _
  · exact setThenO_frame _ _ a b s _
  · exact setThenO_frame _ _ a b s _
  · exact setThenO_frame _ _ a b s _
  · exact oThenSet_frame _ _ a b s _

/-- Settles O46: the frame of `setThenO`, and for SHR that of `oThenSet`. -/
theorem arithmeticFrame : Obligations.ArithmeticFrame := by
  unfold Obligations.ArithmeticFrame
  intro a b s t i hi h
  obtain ⟨hreg, hrest⟩ := arithmetic_storeFrame hi h
  exact ⟨fun r ha ho => hreg r ha (fun e => ho e.1), hrest⟩

/-- Settles O47: O is in the frame only where the divisor read is 0. -/
theorem modFrame : Obligations.ModFrame := by
  unfold Obligations.ModFrame
  intro a b s t h
  obtain rfl : modNext a b s = t := Host.Outcome.next.inj ((execMod_spec a b s).symm.trans h)
  exact modNext_frame a b s

/-- Settles O48: a store after the read of b alone. -/
theorem setFrame : Obligations.SetFrame := by
  unfold Obligations.SetFrame
  intro a b s t h
  obtain rfl := Host.Outcome.next.inj ((execSet_spec a b s).symm.trans h)
  obtain ⟨hreg, hrest⟩ := ((readSecond_frame a b s).storeOperand (operandValue b s)).tick 1
  rw [get_resolve_state]
  exact ⟨fun r ha => hreg r ha (fun e => e.2), hrest⟩

/-- Settles O49: the frame of `setOnly`. -/
theorem bitwiseFrame : Obligations.BitwiseFrame := by
  unfold Obligations.BitwiseFrame
  intro a b s t i hi h
  have frame : StoreFrame a b False s (readBoth a b s).state t := by
    simp only [List.mem_cons, List.not_mem_nil, or_false] at hi
    obtain rfl | rfl | rfl := hi <;> obtain rfl := Host.Outcome.next.inj h <;> exact setOnly_frame _ a b s _
  obtain ⟨hreg, hrest⟩ := frame
  exact ⟨fun r ha => hreg r ha (fun e => e.2), hrest⟩

/-- Settles O50: the frame of `skipIf`. -/
theorem conditionalFrame : Obligations.ConditionalFrame := by
  unfold Obligations.ConditionalFrame
  intro a b s t i hi h
  simp only [List.mem_cons, List.not_mem_nil, or_false] at hi
  obtain rfl | rfl | rfl | rfl := hi <;> obtain rfl := Host.Outcome.next.inj h <;> exact skipIf_frame _ a b s _

/-- Settles O51: the push changes SP and the word at `pushAddress`, the read SP, the jump PC. -/
theorem jsrFrame : Obligations.JsrFrame := by
  unfold Obligations.JsrFrame
  intro a s t h
  obtain rfl := Host.Outcome.next.inj ((execJsr_pushed a s).symm.trans h)
  refine ⟨fun r hpc hsp => ?_, by simp [State.push_eq], by simp [State.push_eq], fun k hk => ?_⟩
  · rw [State.getReg_tick, State.getReg_setReg_ne _ .pc r _ hpc, afterRead_getReg_ne a _ r (fun e => hsp e.1),
      push_getReg_ne s _ r hsp]
  · rw [State.readWord_tick, State.readWord_setReg, afterRead_readWord, push_readWord, if_neg hk]

end Sys2Proof.Machine

/-! PROOFS. R14, the overflow register: what O holds after each instruction; and two short programs: the return from a JSR, and a
store that the next fetch sees. -/

namespace Sys2Proof.Machine

/-! ## O after the shapes of the instruction rules -/

section Overflow

variable (f g : Word → Word → Word) (a b : Operand) (s : State) (n : Nat)

theorem storeOperand_o (v : Word) (s0 : State) :
    (storeOperand a v s0 s).getReg .o = if a = .reg .o then v else s.getReg .o := by
  split
  · next isO =>
    rw [isO]
    exact State.getReg_setReg_self s .o v
  · next notO => exact storeOperand_getReg a v s0 s .o notO (fun e => absurd e.1 (by decide))

theorem afterRead_o : (afterRead a s).getReg .o = s.getReg .o :=
  afterRead_getReg_ne a s .o (fun e => absurd e.1 (by decide))

theorem setOnly_o : (setOnly f a b (s.tick n)).getReg .o =
    if a = .reg .o then f (operandValue a s) (operandValue b (afterRead a s)) else s.getReg .o := by
  rw [setOnly_spec, State.getReg_tick, storeOperand_o, afterRead_o, afterRead_o]

theorem setThenO_o : (setThenO f g a b (s.tick n)).getReg .o = g (operandValue a s) (operandValue b (afterRead a s)) := by
  rw [setThenO_spec, State.getReg_tick, State.getReg_setReg_self]

theorem oThenSet_o : (oThenSet f g a b (s.tick n)).getReg .o =
    if a = .reg .o then f (operandValue a s) (operandValue b (afterRead a s))
    else g (operandValue a s) (operandValue b (afterRead a s)) := by
  rw [oThenSet_spec, State.getReg_tick, storeOperand_o, State.getReg_setReg_self]

theorem skipIf_o (c : Word → Word → Bool) : (skipIf c a b (s.tick n)).getReg .o = s.getReg .o := by
  obtain ⟨hreg, -⟩ := skipIf_frame c a b s n
  exact hreg .o (fun e => absurd e.1 (by decide))

end Overflow

/-! ## The values of O -/

theorem mulO_toNat (va vb : Word) : (mulO va vb).toNat = va.toNat * vb.toNat / 0x10000 := by
  have words := mul_words va vb
  have low := (mulResult va vb).isLt
  omega

theorem divO_toNat_mod (va vb : Word) :
    (divO va vb).toNat = if vb.toNat = 0 then 0 else va.toNat * 0x10000 / vb.toNat % 0x10000 := by
  split
  · next zero => rw [eq_zero_of_toNat zero, divO_zero]; rfl
  · next nonzero => rw [divO, if_neg (ne_zero_of_toNat nonzero), Nat.shiftLeft_eq]; rfl

theorem shlO_toNat (va vb : Word) : (shlO va vb).toNat = va.toNat * 2 ^ vb.toNat / 0x10000 % 0x10000 := by
  have words := shl_words va vb
  have low := (shlResult va vb).isLt
  generalize va.toNat * 2 ^ vb.toNat = x at words ⊢
  omega

theorem shrO_toNat (va vb : Word) : (shrO va vb).toNat = va.toNat * 0x10000 / 2 ^ vb.toNat % 0x10000 := by
  have words := shr_words va vb
  have low := (shrO va vb).isLt
  generalize va.toNat * 0x10000 / 2 ^ vb.toNat = x at words ⊢
  omega

theorem shrResult_toNat (va vb : Word) : (shrResult va vb).toNat = va.toNat / 2 ^ vb.toNat := by
  rw [shrResult, wrapNat, BitVec.toNat_ofNat, Nat.shiftRight_eq_div_pow, Nat.mod_eq_of_lt (nat_div_lt_word va _)]

theorem modResult_nonzero_toNat (va : Word) {vb : Word} (h : vb ≠ 0) : (modResult va vb).toNat = va.toNat % vb.toNat := by
  rw [modResult_toNat va vb h, BitVec.toNat_ofNat,
    Nat.mod_eq_of_lt (Nat.lt_of_le_of_lt (Nat.mod_le va.toNat vb.toNat) va.isLt)]

/-! ## O after MOD and after the instructions that keep it -/

theorem mod_o {a b : Operand} {s t : State} (h : exec (.mod a b) s = .next t) :
    t.getReg .o = if operandValue b (afterRead a s) = 0 then 0
      else if a = .reg .o then modResult (operandValue a s) (operandValue b (afterRead a s)) else s.getReg .o := by
  obtain rfl := Host.Outcome.next.inj ((execMod_spec a b s).symm.trans h)
  simp only []
  split
  · rw [State.getReg_tick, State.getReg_setReg_self]
  · rw [State.getReg_tick, storeOperand_o, afterRead_o, afterRead_o]

theorem set_o {a b : Operand} {s t : State} (h : exec (.set a b) s = .next t) :
    t.getReg .o = if a = .reg .o then operandValue b s else s.getReg .o := by
  obtain rfl := Host.Outcome.next.inj ((execSet_spec a b s).symm.trans h)
  rw [State.getReg_tick, storeOperand_o, afterRead_o]

theorem jsr_o {a : Operand} {s t : State} (h : exec (.jsr a) s = .next t) : t.getReg .o = s.getReg .o := by
  obtain ⟨hreg, -⟩ := jsrFrame a s t h
  exact hreg .o (by decide) (by decide)

/-- SET, AND, BOR, XOR keep O unless it is the destination, the conditionals and JSR always. -/
theorem o_kept {a b : Operand} {s t : State} {i : Instr}
    (hi : i ∈ [Instr.set a b, .and a b, .bor a b, .xor a b, .ife a b, .ifn a b, .ifg a b, .ifb a b, .jsr a])
    (h : exec i s = .next t) (hkeeps : isConditional i = true ∨ i = .jsr a ∨ a ≠ .reg .o) : t.getReg .o = s.getReg .o := by
  have notO : isConditional i = false → i ≠ .jsr a → a ≠ .reg .o := fun hcond hjsr =>
    (hkeeps.resolve_left (ne_true_of_eq_false hcond)).resolve_left hjsr
  have stores : ∀ f n, setOnly f a b (s.tick n) = t → a ≠ .reg .o → t.getReg .o = s.getReg .o := by
    rintro f n rfl hne
    exact (setOnly_o f a b s n).trans (if_neg hne)
  have tests : ∀ c n, skipIf c a b (s.tick n) = t → t.getReg .o = s.getReg .o := by
    rintro c n rfl
    exact skipIf_o a b s n c
  simp only [List.mem_cons, List.not_mem_nil, or_false] at hi
  obtain rfl | rfl | rfl | rfl | rfl | rfl | rfl | rfl | rfl := hi
  · exact (set_o h).trans (if_neg (notO rfl nofun))
  · exact stores _ _ (Host.Outcome.next.inj h) (notO rfl nofun)
  · exact stores _ _ (Host.Outcome.next.inj h) (notO rfl nofun)
  · exact stores _ _ (Host.Outcome.next.inj h) (notO rfl nofun)
  · exact tests _ _ (Host.Outcome.next.inj h)
  · exact tests _ _ (Host.Outcome.next.inj h)
  · exact tests _ _ (Host.Outcome.next.inj h)
  · exact tests _ _ (Host.Outcome.next.inj h)
  · exact jsr_o h

/-- Settles O54: O by the shape of each instruction, with the value that the rule computes for it. -/
theorem writersOfO : Obligations.WritersOfO := by
  unfold Obligations.WritersOfO
  intro a b s t va vb o
  refine ⟨fun h => ?_, fun h => ?_, fun h => ?_, fun h => ?_, fun h => ?_, fun h => ?_, fun h => ?_, fun isO =>
    ⟨fun h => (set_o h).trans (if_pos isO), fun h => ?_, fun h => ?_, fun h => ?_⟩, fun _ => o_kept⟩
  · obtain rfl := Host.Outcome.next.inj h
    exact (setThenO_o addResult addO a b s 2).trans (addO_eq va vb)
  · obtain rfl := Host.Outcome.next.inj h
    exact (setThenO_o subResult subO a b s 2).trans (subO_eq va vb)
  · obtain rfl := Host.Outcome.next.inj h
    exact (congrArg BitVec.toNat (setThenO_o mulResult mulO a b s 2)).trans (mulO_toNat va vb)
  · obtain rfl := Host.Outcome.next.inj h
    exact (congrArg BitVec.toNat (setThenO_o divResult divO a b s 3)).trans (divO_toNat_mod va vb)
  · obtain rfl := Host.Outcome.next.inj h
    exact (congrArg BitVec.toNat (setThenO_o shlResult shlO a b s 2)).trans (shlO_toNat va vb)
  · obtain rfl := Host.Outcome.next.inj h
    have spec : o = if a = .reg .o then shrResult va vb else shrO va vb := oThenSet_o shrResult shrO a b s 2
    rw [spec]
    split
    · exact shrResult_toNat va vb
    · exact shrO_toNat va vb
  · have spec : o = if vb = 0 then 0 else if a = .reg .o then modResult va vb else s.getReg .o := mod_o h
    refine ⟨fun zero => ?_, fun nonzero notO => ?_, fun nonzero isO => ?_⟩
    · rw [spec, if_pos (eq_zero_of_toNat zero)]
    · rw [spec, if_neg (ne_zero_of_toNat nonzero), if_neg notO]
    · rw [spec, if_neg (ne_zero_of_toNat nonzero), if_pos isO]
      exact modResult_nonzero_toNat va (ne_zero_of_toNat nonzero)
  · obtain rfl := Host.Outcome.next.inj h
    exact (setOnly_o andResult a b s 1).trans (if_pos isO)
  · obtain rfl := Host.Outcome.next.inj h
    exact (setOnly_o borResult a b s 1).trans (if_pos isO)
  · obtain rfl := Host.Outcome.next.inj h
    exact (setOnly_o xorResult a b s 1).trans (if_pos isO)

/-! ## Short programs -/

theorem afterRead_of_not_stackSlot {a : Operand} (h : isStackSlot a = false) (s : State) : afterRead a s = s :=
  if_neg (ne_true_of_eq_false h)

/-- What JSR leaves on the stack when its operand does not pop: the address after it, at SP (R86). -/
theorem jsr_stack {a : Operand} {s t : State} (ha : isStackSlot a = false) (h : exec (.jsr a) s = .next t) :
    t.getReg .sp = s.pushAddress ∧ t.readWord (t.getReg .sp) = s.getReg .pc := by
  obtain rfl := Host.Outcome.next.inj ((execJsr_pushed a s).symm.trans h)
  rw [afterRead_of_not_stackSlot ha, State.getReg_tick, State.getReg_setReg_ne _ .pc .sp _ (by decide), push_sp]
  exact ⟨rfl, (push_readWord s _ _).trans (if_pos rfl)⟩

/-- Settles O57: the pop reads the word JSR pushed and takes SP back by one. -/
theorem setPcPopReturnsFromJsr : Obligations.SetPcPopReturnsFromJsr := by
  unfold Obligations.SetPcPopReturnsFromJsr
  intro a s t u ha h hsp htop
  obtain ⟨ht_sp, ht_top⟩ := jsr_stack ha h
  refine ⟨_, execSet_spec (.reg .pc) .pop u, ?_, ?_⟩
  · calc u.readWord (u.getReg .sp) = t.readWord (t.getReg .sp) := by rw [hsp, htop]
      _ = s.getReg .pc := ht_top
  · calc u.getReg .sp + 1 = s.getReg .sp - 1 + 1 := by rw [hsp, ht_sp, State.pushAddress]
      _ = s.getReg .sp := BitVec.sub_add_cancel _ _

/-- Settles O58: the store writes the word at `n`, and every fetch reads memory at PC. -/
theorem storeIsSeenByTheNextFetch : Obligations.StoreIsSeenByTheNextFetch := by
  unfold Obligations.StoreIsSeenByTheNextFetch
  intro n b s t h hpc
  have stored : t.readWord n = operandValue b s := by
    obtain rfl := Host.Outcome.next.inj ((execSet_spec (.abs n) b s).symm.trans h)
    exact State.readWord_writeWord_self _ n _
  rw [State.fetch_word, State.window, List.head?_cons, hpc, stored]
  exact ⟨rfl, rfl⟩

end Sys2Proof.Machine
